-- ==== Sys2Proof/Word.lean ====
section
/-! DEFINITION. The words of the machine: a word is 32 bits, a halfword 16, a byte 8, a register index 5
(00_scope.md R6 XLEN, R7; 15_interfaces.md R46). -/

namespace Sys2Proof

/-- A register value, the pc, an address or an instruction: a 32-bit pattern (00_scope.md R8, 10_state.md R36). -/
abbrev Word := BitVec 32

/-- 16 bits (00_scope.md R7). -/
abbrev Half := BitVec 16

/-- 8 bits, one cell of the memory (00_scope.md R7, 10_state.md R32). -/
abbrev Byte := BitVec 8

/-- A register index: the 5-bit fields rd, rs1, rs2 (15_interfaces.md R46). -/
abbrev Reg := BitVec 5

end Sys2Proof
end

