-- ==== Sys2Proof/Config.lean ====
section
/-! DEFINITION. The parameters of the core and its constants (00_scope.md R6, 92_eei_decisions.md, the table
"Open parameters, gathered"). The spec leaves no result of a step open, so there is no free value. -/

namespace Sys2Proof

/-- The three parameters the spec marks "argument" (00_scope.md R6), with their defaults. Constant during a run. -/
structure Config where
  /-- MEM_SIZE_REQ, the capacity asked for in bytes (20_memory.md R60). -/
  memSizeReq : Nat := 65536
  /-- INSN_LIMIT, none or the instruction-count limit (10_state.md R31). -/
  insnLimit : Option Nat := none
  /-- STRICT_DECODE, false for this hardware (30_encoding.md R112). -/
  strictDecode : Bool := false
  deriving DecidableEq, Repr

/-- MEM_FILL: the byte every memory cell holds after construction (20_memory.md R61). It is what an address
that the memory list does not name reads as. -/
def memFill : Byte := 0xA5#8

/-- REG_SENTINEL: what registers 1 to 31 hold after reset (70_reset_and_hazards.md R272). -/
def regSentinel : Word := 0xF0F0F0F0#32

/-- PC_RESET (70_reset_and_hazards.md R272). -/
def pcReset : Word := 0#32

/-- IMAGE_BASE: the address the program image is copied to (70_reset_and_hazards.md R274). -/
def imageBase : Nat := 0

end Sys2Proof
end

