-- ==== Sys2Proof/Syntax.lean ====
section
/-! DEFINITION. The instructions: one constructor per row of spec/opcode_table.json.
Immediates are the 32-bit values the rules use (30_encoding.md R98 to R102), already assembled and sign-extended;
which of them an encoding can carry is `Instr.wellFormed`. -/

namespace Sys2Proof

/-- The 46 rows of the opcode table. Operands that the word carries but the hardware ignores are kept only for
FENCE and the CSR forms, whose rows name them as fields. -/
inductive Instr where
  -- upper-immediate, layout U: `rd, imm_u`
  | lui   (rd : Reg) (imm : Word)
  | auipc (rd : Reg) (imm : Word)
  -- jumps: `rd, imm_j` and `rd, imm_i(rs1)`
  | jal   (rd : Reg) (imm : Word)
  | jalr  (rd rs1 : Reg) (imm : Word)
  -- branches, layout B: `rs1, rs2, imm_b`
  | beq   (rs1 rs2 : Reg) (imm : Word)
  | bne   (rs1 rs2 : Reg) (imm : Word)
  | blt   (rs1 rs2 : Reg) (imm : Word)
  | bge   (rs1 rs2 : Reg) (imm : Word)
  | bltu  (rs1 rs2 : Reg) (imm : Word)
  | bgeu  (rs1 rs2 : Reg) (imm : Word)
  -- loads, layout I: `rd, imm_i(rs1)`
  | lb    (rd rs1 : Reg) (imm : Word)
  | lh    (rd rs1 : Reg) (imm : Word)
  | lw    (rd rs1 : Reg) (imm : Word)
  | lbu   (rd rs1 : Reg) (imm : Word)
  | lhu   (rd rs1 : Reg) (imm : Word)
  -- stores, layout S: `rs2, imm_s(rs1)`
  | sb    (rs1 rs2 : Reg) (imm : Word)
  | sh    (rs1 rs2 : Reg) (imm : Word)
  | sw    (rs1 rs2 : Reg) (imm : Word)
  -- immediate-ALU, layout I: `rd, rs1, imm_i`, and the shift form `rd, rs1, shamt`
  | addi  (rd rs1 : Reg) (imm : Word)
  | slti  (rd rs1 : Reg) (imm : Word)
  | sltiu (rd rs1 : Reg) (imm : Word)
  | xori  (rd rs1 : Reg) (imm : Word)
  | ori   (rd rs1 : Reg) (imm : Word)
  | andi  (rd rs1 : Reg) (imm : Word)
  | slli  (rd rs1 : Reg) (shamt : BitVec 5)
  | srli  (rd rs1 : Reg) (shamt : BitVec 5)
  | srai  (rd rs1 : Reg) (shamt : BitVec 5)
  -- register-ALU, layout R: `rd, rs1, rs2`
  | add   (rd rs1 rs2 : Reg)
  | sub   (rd rs1 rs2 : Reg)
  | sll   (rd rs1 rs2 : Reg)
  | slt   (rd rs1 rs2 : Reg)
  | sltu  (rd rs1 rs2 : Reg)
  | xor   (rd rs1 rs2 : Reg)
  | srl   (rd rs1 rs2 : Reg)
  | sra   (rd rs1 rs2 : Reg)
  | or    (rd rs1 rs2 : Reg)
  | and   (rd rs1 rs2 : Reg)
  -- memory-fence: every field is ignored by the hardware (48_fence.md R220)
  | fence (fm pred succ : BitVec 4) (rs1 rd : Reg)
  -- system: whole-word ECALL and EBREAK, then the CSR forms that halt as illegal (49_system.md R225 to R236)
  | ecall
  | ebreak
  | csrrw  (rd : Reg) (csr : BitVec 12) (rs1 : Reg)
  | csrrs  (rd : Reg) (csr : BitVec 12) (rs1 : Reg)
  | csrrc  (rd : Reg) (csr : BitVec 12) (rs1 : Reg)
  | csrrwi (rd : Reg) (csr : BitVec 12) (zimm : BitVec 5)
  | csrrsi (rd : Reg) (csr : BitVec 12) (zimm : BitVec 5)
  | csrrci (rd : Reg) (csr : BitVec 12) (zimm : BitVec 5)
  deriving DecidableEq, Repr

end Sys2Proof
end

