-- ==== Sys2Proof/WellFormed.lean ====
section
/-! DEFINITION. Which instructions an encoding can carry: the immediate lies in the range its format gives
(30_encoding.md R98 to R102). Register indexes, shift amounts and CSR fields are in range by their types. -/

namespace Sys2Proof

/-- A 12-bit signed immediate, -2048 to 2047 (30_encoding.md R98 and R99, formats I and S). -/
abbrev fitsImm12 (imm : Word) : Bool := decide (-2048 ≤ imm.toInt ∧ imm.toInt ≤ 2047)

/-- A B immediate: even, -4096 to 4094 (30_encoding.md R100). -/
abbrev fitsImmB (imm : Word) : Bool :=
  decide (-4096 ≤ imm.toInt ∧ imm.toInt ≤ 4094) && !imm.getLsbD 0

/-- A U immediate: the low 12 bits are zero (30_encoding.md R101). -/
abbrev fitsImmU (imm : Word) : Bool := imm &&& 0xFFF#32 == 0#32

/-- A J immediate: even, -1048576 to 1048574 (30_encoding.md R102). -/
abbrev fitsImmJ (imm : Word) : Bool :=
  decide (-1048576 ≤ imm.toInt ∧ imm.toInt ≤ 1048574) && !imm.getLsbD 0

/-- The instruction has an encoding: its immediate is one its format carries (30_encoding.md R93). -/
def Instr.wellFormed : Instr → Bool
  | .lui _ imm | .auipc _ imm => fitsImmU imm
  | .jal _ imm => fitsImmJ imm
  | .jalr _ _ imm => fitsImm12 imm
  | .beq _ _ imm | .bne _ _ imm | .blt _ _ imm | .bge _ _ imm | .bltu _ _ imm | .bgeu _ _ imm => fitsImmB imm
  | .lb _ _ imm | .lh _ _ imm | .lw _ _ imm | .lbu _ _ imm | .lhu _ _ imm => fitsImm12 imm
  | .sb _ _ imm | .sh _ _ imm | .sw _ _ imm => fitsImm12 imm
  | .addi _ _ imm | .slti _ _ imm | .sltiu _ _ imm | .xori _ _ imm | .ori _ _ imm | .andi _ _ imm => fitsImm12 imm
  | .slli _ _ _ | .srli _ _ _ | .srai _ _ _ => true
  | .add _ _ _ | .sub _ _ _ | .sll _ _ _ | .slt _ _ _ | .sltu _ _ _ | .xor _ _ _ | .srl _ _ _ | .sra _ _ _
  | .or _ _ _ | .and _ _ _ => true
  | .fence _ _ _ _ _ => true
  | .ecall | .ebreak => true
  | .csrrw _ _ _ | .csrrs _ _ _ | .csrrc _ _ _ | .csrrwi _ _ _ | .csrrsi _ _ _ | .csrrci _ _ _ => true

end Sys2Proof
end

