-- ==== Sys2Proof/Decode.lean ====
section
/-! DEFINITION. The decoder, a total function of one 32-bit word and of STRICT_DECODE (30_encoding.md R91 to R113,
40_step_cycle.md R132), and after it the encoder, written from the same tables. Every numeric selector is the
spec's own supply from general knowledge (93_implementation_defined.md B2 to B7; log entry 17). -/

namespace Sys2Proof

/-! ## Extension (00_scope.md R9) -/

/-- `sext_n`: the low n bits of v, sign-extended to 32 bits. -/
def sext (n : Nat) (v : Word) : Word := (v.setWidth n).signExtend 32

/-- `zext_n`: the low n bits of v, zero-extended to 32 bits. -/
def zext (n : Nat) (v : Word) : Word := (v.setWidth n).setWidth 32

/-! ## The six fields (30_encoding.md R91), and the fields of FENCE, CSR forms and shifts -/

def opcode (w : Word) : BitVec 7 := w.extractLsb' 0 7
def fieldRd (w : Word) : Reg := w.extractLsb' 7 5
def funct3 (w : Word) : BitVec 3 := w.extractLsb' 12 3
def fieldRs1 (w : Word) : Reg := w.extractLsb' 15 5
def fieldRs2 (w : Word) : Reg := w.extractLsb' 20 5
def funct7 (w : Word) : BitVec 7 := w.extractLsb' 25 7

/-- shamt, the same bits as rs2 (30_encoding.md R94). -/
def fieldShamt (w : Word) : BitVec 5 := w.extractLsb' 20 5

/-- The CSR number, or any 12-bit field at 31:20 (49_system.md R230). -/
def fieldCsr (w : Word) : BitVec 12 := w.extractLsb' 20 12

/-- fm, pred and succ of FENCE (48_fence.md R220). -/
def fieldFm (w : Word) : BitVec 4 := w.extractLsb' 28 4
def fieldPred (w : Word) : BitVec 4 := w.extractLsb' 24 4
def fieldSucc (w : Word) : BitVec 4 := w.extractLsb' 20 4

/-! ## The five immediates, 32-bit values (30_encoding.md R98 to R102) -/

/-- R98: `sext_12(insn[31:20])`. -/
def immI (w : Word) : Word := (w.extractLsb' 20 12).signExtend 32

/-- R99: `sext_12(insn[31:25] ++ insn[11:7])`. -/
def immS (w : Word) : Word := (w.extractLsb' 25 7 ++ w.extractLsb' 7 5).signExtend 32

/-- R100: `sext_13(insn[31] ++ insn[7] ++ insn[30:25] ++ insn[11:8] ++ 0)`. -/
def immB (w : Word) : Word :=
  (w.extractLsb' 31 1 ++ w.extractLsb' 7 1 ++ w.extractLsb' 25 6 ++ w.extractLsb' 8 4 ++ 0#1).signExtend 32

/-- R101: `insn[31:12] ++ 0x000`. -/
def immU (w : Word) : Word := w.extractLsb' 12 20 ++ 0#12

/-- R102: `sext_21(insn[31] ++ insn[19:12] ++ insn[20] ++ insn[30:21] ++ 0)`. -/
def immJ (w : Word) : Word :=
  (w.extractLsb' 31 1 ++ w.extractLsb' 12 8 ++ w.extractLsb' 20 1 ++ w.extractLsb' 21 10 ++ 0#1).signExtend 32

/-! ## Dispatch (30_encoding.md R103 to R113) -/

/-- Why a word (or a byte sequence) is no instruction: the items of 30_encoding.md R113. The CSR words of item 7
decode to their own constructors, whose meaning is the same halt (49_system.md R230). -/
inductive Illegal where
  /-- R113 item 1: the opcode is in no family. -/
  | unknownOpcode
  /-- R113 item 2. -/
  | branchFunct3
  /-- R113 item 3. -/
  | loadFunct3
  /-- R113 item 4. -/
  | storeFunct3
  /-- R113 item 5. -/
  | shiftImmFunct7
  /-- R113 item 6. -/
  | regAluFunct7
  /-- R113 item 7, the part that is no CSR form. -/
  | systemWord
  /-- R113 item 8: a reserved field that only STRICT_DECODE examines (R112). -/
  | reservedField
  /-- Fewer than the four bytes of an instruction (R90). A fetch never gives this: it always has four bytes. -/
  | truncated
  deriving DecidableEq, Repr

/-- A field the dispatch does not examine unless STRICT_DECODE is true (30_encoding.md R112). -/
def unexamined (strict : Bool) {n : Nat} (field : BitVec n) (i : Instr) : Except Illegal Instr :=
  if strict && field != 0#n then .error .reservedField else .ok i

/-- Level 2 of the branch family (R105). -/
def decodeBranch (w : Word) : Except Illegal Instr :=
  match funct3 w with
  | 0b000#3 => .ok (.beq  (fieldRs1 w) (fieldRs2 w) (immB w))
  | 0b001#3 => .ok (.bne  (fieldRs1 w) (fieldRs2 w) (immB w))
  | 0b100#3 => .ok (.blt  (fieldRs1 w) (fieldRs2 w) (immB w))
  | 0b101#3 => .ok (.bge  (fieldRs1 w) (fieldRs2 w) (immB w))
  | 0b110#3 => .ok (.bltu (fieldRs1 w) (fieldRs2 w) (immB w))
  | 0b111#3 => .ok (.bgeu (fieldRs1 w) (fieldRs2 w) (immB w))
  | _ => .error .branchFunct3

/-- Level 2 of the load family (R106). -/
def decodeLoad (w : Word) : Except Illegal Instr :=
  match funct3 w with
  | 0b000#3 => .ok (.lb  (fieldRd w) (fieldRs1 w) (immI w))
  | 0b001#3 => .ok (.lh  (fieldRd w) (fieldRs1 w) (immI w))
  | 0b010#3 => .ok (.lw  (fieldRd w) (fieldRs1 w) (immI w))
  | 0b100#3 => .ok (.lbu (fieldRd w) (fieldRs1 w) (immI w))
  | 0b101#3 => .ok (.lhu (fieldRd w) (fieldRs1 w) (immI w))
  | _ => .error .loadFunct3

/-- Level 2 of the store family (R107). -/
def decodeStore (w : Word) : Except Illegal Instr :=
  match funct3 w with
  | 0b000#3 => .ok (.sb (fieldRs1 w) (fieldRs2 w) (immS w))
  | 0b001#3 => .ok (.sh (fieldRs1 w) (fieldRs2 w) (immS w))
  | 0b010#3 => .ok (.sw (fieldRs1 w) (fieldRs2 w) (immS w))
  | _ => .error .storeFunct3

/-- Levels 2 and 3 of the immediate-ALU family (R108). -/
def decodeAluImm (strict : Bool) (w : Word) : Except Illegal Instr :=
  match funct3 w with
  | 0b000#3 => .ok (.addi  (fieldRd w) (fieldRs1 w) (immI w))
  | 0b010#3 => .ok (.slti  (fieldRd w) (fieldRs1 w) (immI w))
  | 0b011#3 => .ok (.sltiu (fieldRd w) (fieldRs1 w) (immI w))
  | 0b100#3 => .ok (.xori  (fieldRd w) (fieldRs1 w) (immI w))
  | 0b110#3 => .ok (.ori   (fieldRd w) (fieldRs1 w) (immI w))
  | 0b111#3 => .ok (.andi  (fieldRd w) (fieldRs1 w) (immI w))
  | 0b001#3 => unexamined strict (funct7 w) (.slli (fieldRd w) (fieldRs1 w) (fieldShamt w))
  | _ =>
    match funct7 w with
    | 0b0000000#7 => .ok (.srli (fieldRd w) (fieldRs1 w) (fieldShamt w))
    | 0b0100000#7 => .ok (.srai (fieldRd w) (fieldRs1 w) (fieldShamt w))
    | _ => .error .shiftImmFunct7

/-- Levels 2 and 3 of the register-ALU family (R109). -/
def decodeAluReg (strict : Bool) (w : Word) : Except Illegal Instr :=
  match funct3 w with
  | 0b000#3 =>
    match funct7 w with
    | 0b0000000#7 => .ok (.add (fieldRd w) (fieldRs1 w) (fieldRs2 w))
    | 0b0100000#7 => .ok (.sub (fieldRd w) (fieldRs1 w) (fieldRs2 w))
    | _ => .error .regAluFunct7
  | 0b001#3 => unexamined strict (funct7 w) (.sll  (fieldRd w) (fieldRs1 w) (fieldRs2 w))
  | 0b010#3 => unexamined strict (funct7 w) (.slt  (fieldRd w) (fieldRs1 w) (fieldRs2 w))
  | 0b011#3 => unexamined strict (funct7 w) (.sltu (fieldRd w) (fieldRs1 w) (fieldRs2 w))
  | 0b100#3 => unexamined strict (funct7 w) (.xor  (fieldRd w) (fieldRs1 w) (fieldRs2 w))
  | 0b110#3 => unexamined strict (funct7 w) (.or   (fieldRd w) (fieldRs1 w) (fieldRs2 w))
  | 0b111#3 => unexamined strict (funct7 w) (.and  (fieldRd w) (fieldRs1 w) (fieldRs2 w))
  | _ =>
    match funct7 w with
    | 0b0000000#7 => .ok (.srl (fieldRd w) (fieldRs1 w) (fieldRs2 w))
    | 0b0100000#7 => .ok (.sra (fieldRd w) (fieldRs1 w) (fieldRs2 w))
    | _ => .error .regAluFunct7

/-- Level 2 of the system/CSR family (R110): ECALL and EBREAK by the whole word, then funct3. The six CSR forms are
recognised here and halt as illegal in their meanings (49_system.md R230). -/
def decodeSystem (w : Word) : Except Illegal Instr :=
  if w = 0x00000073#32 then .ok .ecall
  else if w = 0x00100073#32 then .ok .ebreak
  else
    match funct3 w with
    | 0b001#3 => .ok (.csrrw  (fieldRd w) (fieldCsr w) (fieldRs1 w))
    | 0b010#3 => .ok (.csrrs  (fieldRd w) (fieldCsr w) (fieldRs1 w))
    | 0b011#3 => .ok (.csrrc  (fieldRd w) (fieldCsr w) (fieldRs1 w))
    | 0b101#3 => .ok (.csrrwi (fieldRd w) (fieldCsr w) (fieldRs1 w))
    | 0b110#3 => .ok (.csrrsi (fieldRd w) (fieldCsr w) (fieldRs1 w))
    | 0b111#3 => .ok (.csrrci (fieldRd w) (fieldCsr w) (fieldRs1 w))
    | _ => .error .systemWord

/-- Level 1, the opcode (R104), with the single-instruction families of R111. -/
def decode (strict : Bool) (w : Word) : Except Illegal Instr :=
  match opcode w with
  | 0b0110111#7 => .ok (.lui (fieldRd w) (immU w))
  | 0b0010111#7 => .ok (.auipc (fieldRd w) (immU w))
  | 0b1101111#7 => .ok (.jal (fieldRd w) (immJ w))
  | 0b1100111#7 => unexamined strict (funct3 w) (.jalr (fieldRd w) (fieldRs1 w) (immI w))
  | 0b1100011#7 => decodeBranch w
  | 0b0000011#7 => decodeLoad w
  | 0b0100011#7 => decodeStore w
  | 0b0010011#7 => decodeAluImm strict w
  | 0b0110011#7 => decodeAluReg strict w
  | 0b0001111#7 =>
    unexamined strict (funct3 w) (.fence (fieldFm w) (fieldPred w) (fieldSucc w) (fieldRs1 w) (fieldRd w))
  | 0b1110011#7 => decodeSystem w
  | _ => .error .unknownOpcode

/-! ## Bytes: an instruction is four bytes, little-endian (30_encoding.md R90; 20_memory.md R63) -/

/-- The word whose bytes stand at ascending addresses b0, b1, b2, b3. -/
def wordOfBytes (b0 b1 b2 b3 : Byte) : Word := b3 ++ b2 ++ b1 ++ b0

/-- Byte k of a word, `v[8k+7:8k]` (20_memory.md R63). -/
def byteOfWord (w : Word) (k : Nat) : Byte := w.extractLsb' (8 * k) 8

/-- The four bytes of a word as they stand in memory, lowest address first. -/
def bytesOfWord (w : Word) : List Byte := [byteOfWord w 0, byteOfWord w 1, byteOfWord w 2, byteOfWord w 3]

/-- Decodes the first instruction of a byte sequence and returns the rest. -/
def decodeBytes (strict : Bool) : List Byte → Except Illegal (Instr × List Byte)
  | b0 :: b1 :: b2 :: b3 :: rest => (decode strict (wordOfBytes b0 b1 b2 b3)).map (·, rest)
  | _ => .error .truncated

/-- The word whose low nbits bits are those of w and whose other bits are 0 (an opcode-table row's number). -/
def tableWord (nbits w : Nat) : Word := BitVec.ofNat 32 (w % 2 ^ nbits)

/-- What the decoder reads from an opcode-table word, laid out in memory as the hardware stores it, under the
default STRICT_DECODE = false. -/
def decodeTableWord (nbits w : Nat) : Option Instr :=
  match decodeBytes ({} : Config).strictDecode (bytesOfWord (tableWord nbits w)) with
  | .ok (i, _) => some i
  | .error _ => none

/-! ## The encoder: the six layouts of 30_encoding.md R92 -/

def packR (f7 : BitVec 7) (rs2 rs1 : Reg) (f3 : BitVec 3) (rd : Reg) (op : BitVec 7) : Word :=
  f7 ++ rs2 ++ rs1 ++ f3 ++ rd ++ op

/-- The I layout with its 12-bit field 31:20 given as bits. -/
def packI (field : BitVec 12) (rs1 : Reg) (f3 : BitVec 3) (rd : Reg) (op : BitVec 7) : Word :=
  field ++ rs1 ++ f3 ++ rd ++ op

def packS (imm : Word) (rs2 rs1 : Reg) (f3 : BitVec 3) (op : BitVec 7) : Word :=
  imm.extractLsb' 5 7 ++ rs2 ++ rs1 ++ f3 ++ imm.extractLsb' 0 5 ++ op

def packB (imm : Word) (rs2 rs1 : Reg) (f3 : BitVec 3) (op : BitVec 7) : Word :=
  imm.extractLsb' 12 1 ++ imm.extractLsb' 5 6 ++ rs2 ++ rs1 ++ f3 ++ imm.extractLsb' 1 4 ++ imm.extractLsb' 11 1 ++ op

def packU (imm : Word) (rd : Reg) (op : BitVec 7) : Word := imm.extractLsb' 12 20 ++ rd ++ op

def packJ (imm : Word) (rd : Reg) (op : BitVec 7) : Word :=
  imm.extractLsb' 20 1 ++ imm.extractLsb' 1 10 ++ imm.extractLsb' 11 1 ++ imm.extractLsb' 12 8 ++ rd ++ op

/-- imm[11:0], the field of the I layout. -/
def low12 (imm : Word) : BitVec 12 := imm.extractLsb' 0 12

/-- The word of a well-formed instruction. Fields the hardware does not examine are written as 0, which is what
the RV32I base ISA fixes them to (30_encoding.md R112). -/
def encode : Instr → Word
  | .lui rd imm   => packU imm rd 0b0110111#7
  | .auipc rd imm => packU imm rd 0b0010111#7
  | .jal rd imm   => packJ imm rd 0b1101111#7
  | .jalr rd rs1 imm => packI (low12 imm) rs1 0b000#3 rd 0b1100111#7
  | .beq rs1 rs2 imm  => packB imm rs2 rs1 0b000#3 0b1100011#7
  | .bne rs1 rs2 imm  => packB imm rs2 rs1 0b001#3 0b1100011#7
  | .blt rs1 rs2 imm  => packB imm rs2 rs1 0b100#3 0b1100011#7
  | .bge rs1 rs2 imm  => packB imm rs2 rs1 0b101#3 0b1100011#7
  | .bltu rs1 rs2 imm => packB imm rs2 rs1 0b110#3 0b1100011#7
  | .bgeu rs1 rs2 imm => packB imm rs2 rs1 0b111#3 0b1100011#7
  | .lb rd rs1 imm  => packI (low12 imm) rs1 0b000#3 rd 0b0000011#7
  | .lh rd rs1 imm  => packI (low12 imm) rs1 0b001#3 rd 0b0000011#7
  | .lw rd rs1 imm  => packI (low12 imm) rs1 0b010#3 rd 0b0000011#7
  | .lbu rd rs1 imm => packI (low12 imm) rs1 0b100#3 rd 0b0000011#7
  | .lhu rd rs1 imm => packI (low12 imm) rs1 0b101#3 rd 0b0000011#7
  | .sb rs1 rs2 imm => packS imm rs2 rs1 0b000#3 0b0100011#7
  | .sh rs1 rs2 imm => packS imm rs2 rs1 0b001#3 0b0100011#7
  | .sw rs1 rs2 imm => packS imm rs2 rs1 0b010#3 0b0100011#7
  | .addi rd rs1 imm  => packI (low12 imm) rs1 0b000#3 rd 0b0010011#7
  | .slti rd rs1 imm  => packI (low12 imm) rs1 0b010#3 rd 0b0010011#7
  | .sltiu rd rs1 imm => packI (low12 imm) rs1 0b011#3 rd 0b0010011#7
  | .xori rd rs1 imm  => packI (low12 imm) rs1 0b100#3 rd 0b0010011#7
  | .ori rd rs1 imm   => packI (low12 imm) rs1 0b110#3 rd 0b0010011#7
  | .andi rd rs1 imm  => packI (low12 imm) rs1 0b111#3 rd 0b0010011#7
  | .slli rd rs1 sh => packR 0b0000000#7 sh rs1 0b001#3 rd 0b0010011#7
  | .srli rd rs1 sh => packR 0b0000000#7 sh rs1 0b101#3 rd 0b0010011#7
  | .srai rd rs1 sh => packR 0b0100000#7 sh rs1 0b101#3 rd 0b0010011#7
  | .add rd rs1 rs2  => packR 0b0000000#7 rs2 rs1 0b000#3 rd 0b0110011#7
  | .sub rd rs1 rs2  => packR 0b0100000#7 rs2 rs1 0b000#3 rd 0b0110011#7
  | .sll rd rs1 rs2  => packR 0b0000000#7 rs2 rs1 0b001#3 rd 0b0110011#7
  | .slt rd rs1 rs2  => packR 0b0000000#7 rs2 rs1 0b010#3 rd 0b0110011#7
  | .sltu rd rs1 rs2 => packR 0b0000000#7 rs2 rs1 0b011#3 rd 0b0110011#7
  | .xor rd rs1 rs2  => packR 0b0000000#7 rs2 rs1 0b100#3 rd 0b0110011#7
  | .srl rd rs1 rs2  => packR 0b0000000#7 rs2 rs1 0b101#3 rd 0b0110011#7
  | .sra rd rs1 rs2  => packR 0b0100000#7 rs2 rs1 0b101#3 rd 0b0110011#7
  | .or rd rs1 rs2   => packR 0b0000000#7 rs2 rs1 0b110#3 rd 0b0110011#7
  | .and rd rs1 rs2  => packR 0b0000000#7 rs2 rs1 0b111#3 rd 0b0110011#7
  | .fence fm pred succ rs1 rd => packI (fm ++ pred ++ succ) rs1 0b000#3 rd 0b0001111#7
  | .ecall  => 0x00000073#32
  | .ebreak => 0x00100073#32
  | .csrrw rd csr rs1   => packI csr rs1 0b001#3 rd 0b1110011#7
  | .csrrs rd csr rs1   => packI csr rs1 0b010#3 rd 0b1110011#7
  | .csrrc rd csr rs1   => packI csr rs1 0b011#3 rd 0b1110011#7
  | .csrrwi rd csr zimm => packI csr zimm 0b101#3 rd 0b1110011#7
  | .csrrsi rd csr zimm => packI csr zimm 0b110#3 rd 0b1110011#7
  | .csrrci rd csr zimm => packI csr zimm 0b111#3 rd 0b1110011#7

end Sys2Proof
end

