-- ==== Sys2Proof/Machine/Memory.lean ====
section
/-! DEFINITION. The memory: the capacity (20_memory.md R60), the range predicate's bound, and the byte array
(10_state.md R32, 20_memory.md R61) as a list of (address, byte) pairs in one canonical form. -/

namespace Sys2Proof

/-- MEM_SIZE: MEM_SIZE_REQ rounded up to a multiple of 16 (20_memory.md R60). -/
def Config.memSize (c : Config) : Nat := (c.memSizeReq + 15) / 16 * 16

/-- The admissible capacities, `16 <= MEM_SIZE <= 0xFFFFFFF0` (20_memory.md R60; decision D2). -/
abbrev Config.legal (c : Config) : Prop := 16 ≤ c.memSize ∧ c.memSize ≤ 0xFFFFFFF0

namespace Machine

/-- The bytes that differ from MEM_FILL, at strictly rising addresses. -/
abbrev Memory := List Host.Cell

/-- The canonical form: addresses strictly rising, and no entry equal to what an unlisted address reads as. -/
abbrev Memory.wf (m : Memory) : Prop :=
  m.Pairwise (fun c d => c.1 < d.1) ∧ ∀ c ∈ m, c.2 ≠ memFill

/-- Every listed address names a cell of an array of `size` bytes (10_state.md R32). -/
abbrev Memory.within (size : Nat) (m : Memory) : Prop := ∀ c ∈ m, c.1 < size

/-- `mem[a]`: the listed byte, or the fill byte where nothing has been written (20_memory.md R61). -/
def readCell (a : Nat) : Memory → Byte
  | [] => memFill
  | (k, b) :: rest => if k = a then b else readCell a rest

/-- Puts the byte v for address a in front of a list of higher addresses; the fill byte is not listed. -/
def consCell (a : Nat) (v : Byte) (rest : Memory) : Memory :=
  if v = memFill then rest else (a, v) :: rest

/-- `mem[a] <- v`, keeping the canonical form. -/
def writeCell (a : Nat) (v : Byte) : Memory → Memory
  | [] => consCell a v []
  | (k, b) :: rest =>
    if a < k then consCell a v ((k, b) :: rest)
    else if a = k then consCell a v rest
    else (k, b) :: writeCell a v rest

/-- `mem[base], mem[base+1], ... <- bytes` (70_reset_and_hazards.md R274). -/
def writeCells (base : Nat) : List Byte → Memory → Memory
  | [], m => m
  | b :: bytes, m => writeCells (base + 1) bytes (writeCell base b m)

end Machine
end Sys2Proof
end

