-- ==== Sys2Proof/Machine/State.lean ====
section
/-! DEFINITION. The whole state of the core (10_state.md R20), its parameters, and the outputs of its last step. -/

namespace Sys2Proof.Machine

/-- The three halt causes (60_exceptions.md R241, R245). -/
inductive HaltCause where
  | illegalInstruction
  | ebreak
  | ecall
  deriving DecidableEq, Repr

/-- What a step returns (15_interfaces.md R42). -/
inductive StepOutcome where
  /-- One of the 38 non-halting instructions was executed. -/
  | retired
  /-- The step decoded a halting word. -/
  | halted (cause : HaltCause)
  /-- The core was already halted. -/
  | idle
  deriving DecidableEq, Repr

/-- A warning event of a step (15_interfaces.md R43, 20_memory.md R66). -/
inductive Event where
  /-- A byte access to the out-of-range address a. -/
  | outOfRange (a : Word)
  deriving DecidableEq, Repr

/-- Why a step would stop with a fault. The core has no such event: its fatal event, the halt, is a next state
(60_exceptions.md R240, R244), and an access outside memory is a warning (R262). No constructor, so safe. -/
inductive Fault where
  deriving DecidableEq, Repr

/-- Why a step would be refused. -/
inductive Refusal where
  /-- Raised by an arm of exec for an instruction without a meaning. No arm raises it: every row has its meaning.
  Safe: it stops. -/
  | notModelled (mnemonic : String)
  deriving DecidableEq, Repr

/-- The state. `x`, `pc`, `mem`, `halted`, `insnCount` are the spec's state tuple (10_state.md R20); `cfg` holds the
parameters, which no step changes (log entry 1); `outcome` and `events` are what the last step returned
(15_interfaces.md R42, R43), which no step reads (log entry 2). -/
structure State where
  /-- `x[0]` to `x[31]`; slot 0 holds 0 (10_state.md R21). Read and written through getReg and setReg only. -/
  x : Vector Word 32
  /-- The address of the next instruction to fetch (10_state.md R24). -/
  pc : Word
  /-- The byte array, by its bytes that differ from the fill (10_state.md R32). -/
  mem : Memory
  /-- False is running, true is halted (10_state.md R29). -/
  halted : Bool
  /-- `insn_count`, the executed-instruction counter, with no width (10_state.md R30). -/
  insnCount : Nat
  /-- The parameters (00_scope.md R6). -/
  cfg : Config
  /-- What the last step returned; none before the first step. -/
  outcome : Option StepOutcome
  /-- The warnings of the last step, in the order of the byte accesses. -/
  events : List Event
  deriving DecidableEq, Repr

/-- The registers right after reset: `x[0]` is 0, every other register the sentinel (70_reset_and_hazards.md R272). -/
def resetRegs : Vector Word 32 := (Vector.replicate 32 regSentinel).set 0 0#32

/-- The machine constructed with the default parameters and reset (70_reset_and_hazards.md R270, R272;
10_state.md R35): memory is the fill everywhere, nothing is listed. Register 2 holds the sentinel: MEM_SIZE is
written by the later event start of run (90_conflicts.md C7). -/
def State.reset : State where
  x := resetRegs
  pc := pcReset
  mem := []
  halted := false
  insnCount := 0
  cfg := {}
  outcome := none
  events := []

end Sys2Proof.Machine
end

