-- ==== Sys2Proof/Machine/Ops.lean ====
section
/-! DEFINITION. The named operations over registers and memory that every instruction is written with
(00_scope.md R10): register read and write, the six memory accesses with their warnings, the pc writes that retire
an instruction, the halt in place of exceptions, and reset, the only way back from a halt. -/

namespace Sys2Proof.Machine

/-! ## Registers (10_state.md R21, R22) -/

/-- `x[r]`: register 0 reads as 0 at every time. -/
def getReg (r : Reg) (s : State) : Word :=
  if r = 0#5 then 0#32 else s.x[r.toNat]'(r.isLt)

/-- `x[r] <- v`: a write to register 0 is discarded. -/
def setReg (r : Reg) (v : Word) (s : State) : State :=
  if r = 0#5 then s else { s with x := s.x.set r.toNat v r.isLt }

/-! ## Memory accesses (20_memory.md R62 to R74) -/

/-- A byte address is in range iff it is below MEM_SIZE (R62). -/
def inRange (a : Word) (s : State) : Bool := decide (a.toNat < s.cfg.memSize)

/-- `warn OutOfRange(a)`: one event, no other change (R66). -/
def warn (a : Word) (s : State) : State := { s with events := s.events ++ [.outOfRange a] }

/-- R64. -/
def read8 (a : Word) (s : State) : Byte × State :=
  if inRange a s then (readCell a.toNat s.mem, s) else (0x00#8, warn a s)

/-- R65. -/
def write8 (a : Word) (v : Byte) (s : State) : State :=
  if inRange a s then { s with mem := writeCell a.toNat v s.mem } else warn a s

/-- R67: low byte at a, high byte at a + 1 modulo 2^32 (R74). -/
def read16 (a : Word) (s : State) : Half × State :=
  let lo := read8 a s
  let hi := read8 (a + 1#32) lo.2
  (hi.1 ++ lo.1, hi.2)

/-- R68: low half at a, high half at a + 2 modulo 2^32 (R74). -/
def read32 (a : Word) (s : State) : Word × State :=
  let lo := read16 a s
  let hi := read16 (a + 2#32) lo.2
  (hi.1 ++ lo.1, hi.2)

/-- R69. -/
def write16 (a : Word) (v : Half) (s : State) : State :=
  write8 (a + 1#32) (v.extractLsb' 8 8) (write8 a (v.extractLsb' 0 8) s)

/-- R72. -/
def write32 (a : Word) (v : Word) (s : State) : State :=
  write16 (a + 2#32) (v.extractLsb' 16 16) (write16 a (v.extractLsb' 0 16) s)

/-- The number n of bytes of an access: 1, 2 or 4 (R70, R71, R75). -/
inductive Width where
  | byte
  | half
  | word
  deriving DecidableEq, Repr

/-- n. -/
def Width.bytes : Width → Nat
  | .byte => 1
  | .half => 2
  | .word => 4

/-- `MemRead(addr, n)`: an unsigned value of 8n bits (R70). -/
def memRead (n : Width) (addr : Word) (s : State) : Word × State :=
  match n with
  | .byte => let r := read8 addr s; (r.1.setWidth 32, r.2)
  | .half => let r := read16 addr s; (r.1.setWidth 32, r.2)
  | .word => read32 addr s

/-- `MemWrite(addr, n, v)`: the low 8n bits of v (R71). -/
def memWrite (n : Width) (addr : Word) (v : Word) (s : State) : State :=
  match n with
  | .byte => write8 addr (v.extractLsb' 0 8) s
  | .half => write16 addr (v.extractLsb' 0 16) s
  | .word => write32 addr v s

/-! ## Observation without side effect (15_interfaces.md R44): no warning is emitted -/

/-- The byte an access to a reads, without the access. -/
def peek8 (a : Word) (s : State) : Byte := if inRange a s then readCell a.toNat s.mem else 0x00#8

/-- The word at a, without the access. -/
def peek32 (a : Word) (s : State) : Word :=
  wordOfBytes (peek8 a s) (peek8 (a + 1#32) s) (peek8 (a + 2#32) s) (peek8 (a + 3#32) s)

/-! ## The ends of a handler (40_step_cycle.md R133, R135): commit -/

/-- Writes the pc and retires the instruction. -/
def commitPc (target : Word) (s : State) : State := { s with pc := target, outcome := some .retired }

/-- Writes `x[rd]`, then the pc, and retires the instruction. -/
def commitReg (rd : Reg) (v target : Word) (s : State) : State := commitPc target (setReg rd v s)

/-! ## The halt, in place of exceptions, and the way back (60_exceptions.md R244, R250; 70_reset_and_hazards.md R272) -/

/-- `raise Halt(cause)`: `halted <- true`; the pc, the registers and the memory keep their values; the step returns
the cause (R244). `insn_count` was already incremented by the step (40_step_cycle.md R136). -/
def raiseHalt (cause : HaltCause) (s : State) : State :=
  { s with halted := true, outcome := some (.halted cause) }

/-- The `reset` operation: registers, pc, `halted` and `insn_count` take their reset values (R272), the memory and
the parameters stay (R273). The record of the last step is cleared (log entry 2). -/
def resetEngine (s : State) : State :=
  { s with x := resetRegs, pc := pcReset, halted := false, insnCount := 0, outcome := none, events := [] }

end Sys2Proof.Machine
end

