-- ==== Sys2Proof/Machine/Operands.lean ====
section
/-! DEFINITION. The operand forms: the one addressing mode, the pc-relative and register targets, the link value and
the shift counts. -/

namespace Sys2Proof.Machine

/-- `x[rs1] + imm` modulo 2^32, the only addressing mode (44_loads.md R170, 45_stores.md R180). -/
def effAddr (rs1 : Reg) (imm : Word) (s : State) : Word := getReg rs1 s + imm

/-- `pc + 4` modulo 2^32: the next sequential instruction and the link value (10_state.md R26, 42_jumps.md R155). -/
def nextPc (s : State) : Word := s.pc + 4#32

/-- `pc + imm` modulo 2^32: the target of JAL and the branches (42_jumps.md R155, 43_branches.md R160). -/
def pcRelative (imm : Word) (s : State) : Word := s.pc + imm

/-- `(x[rs1] + imm_i) & 0xFFFFFFFE`: the target of JALR (42_jumps.md R156, decision D13, log entry 10). -/
def jalrTarget (rs1 : Reg) (imm : Word) (s : State) : Word := (getReg rs1 s + imm) &&& 0xFFFFFFFE#32

/-- `x[rs2] & 0x1F`: the count of a register shift (47_alu_register.md R208, R212, R213). -/
def shiftCount (v : Word) : BitVec 5 := v.extractLsb' 0 5

end Sys2Proof.Machine
end

