-- ==== Sys2Proof/Machine/Flags.lean ====
section
/-! DEFINITION. The core has no flags and no condition codes (10_state.md R27). What stands here is what takes their
place: the comparisons, whose result is a register value or decides a branch, and the arithmetic that records no
overflow (47_alu_register.md R216). -/

namespace Sys2Proof.Machine

/-- `a <s b`: the exact comparison of the signed values (00_scope.md R8). -/
def ltSigned (a b : Word) : Bool := decide (a.toInt < b.toInt)

/-- `a <u b`: the comparison of the same patterns as natural numbers (00_scope.md R8). -/
def ltUnsigned (a b : Word) : Bool := decide (a.toNat < b.toNat)

/-- The 32-bit value 0 or 1 of a comparison (46_alu_immediate.md R192). -/
def boolWord (b : Bool) : Word := if b then 1#32 else 0#32

/-- `(a << n)[31:0]`: zeros enter at bit 0 (46_alu_immediate.md R198). -/
def shiftLeft (a : Word) (n : BitVec 5) : Word := a <<< n.toNat

/-- `a >>u n`: zeros enter at bit 31 (46_alu_immediate.md R199). -/
def shiftRightLogical (a : Word) (n : BitVec 5) : Word := a >>> n.toNat

/-- `a >>s n`: copies of the old bit 31 enter at bit 31 (46_alu_immediate.md R200). -/
def shiftRightArith (a : Word) (n : BitVec 5) : Word := a.sshiftRight n.toNat

end Sys2Proof.Machine
end

