-- ==== Sys2Proof/Machine/AluImm.lean ====
section
/-! DEFINITION. The immediate-ALU instructions (46_alu_immediate.md). -/

namespace Sys2Proof.Machine

/-- What the immediate-ALU and the register-ALU instructions share: `x[rd] <- v`, `pc <- pc + 4` (R190, R197;
47_alu_register.md R205). -/
def aluResult (rd : Reg) (v : Word) (s : State) : State := commitReg rd v (nextPc s) s

/-- ADDI, R191. -/
def execAddi (rd rs1 : Reg) (imm : Word) (s : State) : Host.Outcome State Fault Refusal :=
  .next (aluResult rd (getReg rs1 s + imm) s)

/-- SLTI, R192. -/
def execSlti (rd rs1 : Reg) (imm : Word) (s : State) : Host.Outcome State Fault Refusal :=
  .next (aluResult rd (boolWord (ltSigned (getReg rs1 s) imm)) s)

/-- SLTIU, R193: the immediate is sign-extended, then read unsigned. -/
def execSltiu (rd rs1 : Reg) (imm : Word) (s : State) : Host.Outcome State Fault Refusal :=
  .next (aluResult rd (boolWord (ltUnsigned (getReg rs1 s) imm)) s)

/-- XORI, R194. -/
def execXori (rd rs1 : Reg) (imm : Word) (s : State) : Host.Outcome State Fault Refusal :=
  .next (aluResult rd (getReg rs1 s ^^^ imm) s)

/-- ORI, R195. -/
def execOri (rd rs1 : Reg) (imm : Word) (s : State) : Host.Outcome State Fault Refusal :=
  .next (aluResult rd (getReg rs1 s ||| imm) s)

/-- ANDI, R196. -/
def execAndi (rd rs1 : Reg) (imm : Word) (s : State) : Host.Outcome State Fault Refusal :=
  .next (aluResult rd (getReg rs1 s &&& imm) s)

/-- SLLI, R198. -/
def execSlli (rd rs1 : Reg) (shamt : BitVec 5) (s : State) : Host.Outcome State Fault Refusal :=
  .next (aluResult rd (shiftLeft (getReg rs1 s) shamt) s)

/-- SRLI, R199. -/
def execSrli (rd rs1 : Reg) (shamt : BitVec 5) (s : State) : Host.Outcome State Fault Refusal :=
  .next (aluResult rd (shiftRightLogical (getReg rs1 s) shamt) s)

/-- SRAI, R200. -/
def execSrai (rd rs1 : Reg) (shamt : BitVec 5) (s : State) : Host.Outcome State Fault Refusal :=
  .next (aluResult rd (shiftRightArith (getReg rs1 s) shamt) s)

end Sys2Proof.Machine
end

