-- ==== Sys2Proof/Machine/AluReg.lean ====
section
/-! DEFINITION. The register-ALU instructions (47_alu_register.md). -/

namespace Sys2Proof.Machine

/-- ADD, R206. -/
def execAdd (rd rs1 rs2 : Reg) (s : State) : Host.Outcome State Fault Refusal :=
  .next (aluResult rd (getReg rs1 s + getReg rs2 s) s)

/-- SUB, R207. -/
def execSub (rd rs1 rs2 : Reg) (s : State) : Host.Outcome State Fault Refusal :=
  .next (aluResult rd (getReg rs1 s - getReg rs2 s) s)

/-- SLL, R208. -/
def execSll (rd rs1 rs2 : Reg) (s : State) : Host.Outcome State Fault Refusal :=
  .next (aluResult rd (shiftLeft (getReg rs1 s) (shiftCount (getReg rs2 s))) s)

/-- SLT, R209. -/
def execSlt (rd rs1 rs2 : Reg) (s : State) : Host.Outcome State Fault Refusal :=
  .next (aluResult rd (boolWord (ltSigned (getReg rs1 s) (getReg rs2 s))) s)

/-- SLTU, R210. -/
def execSltu (rd rs1 rs2 : Reg) (s : State) : Host.Outcome State Fault Refusal :=
  .next (aluResult rd (boolWord (ltUnsigned (getReg rs1 s) (getReg rs2 s))) s)

/-- XOR, R211. -/
def execXor (rd rs1 rs2 : Reg) (s : State) : Host.Outcome State Fault Refusal :=
  .next (aluResult rd (getReg rs1 s ^^^ getReg rs2 s) s)

/-- SRL, R212. -/
def execSrl (rd rs1 rs2 : Reg) (s : State) : Host.Outcome State Fault Refusal :=
  .next (aluResult rd (shiftRightLogical (getReg rs1 s) (shiftCount (getReg rs2 s))) s)

/-- SRA, R213. -/
def execSra (rd rs1 rs2 : Reg) (s : State) : Host.Outcome State Fault Refusal :=
  .next (aluResult rd (shiftRightArith (getReg rs1 s) (shiftCount (getReg rs2 s))) s)

/-- OR, R214. -/
def execOr (rd rs1 rs2 : Reg) (s : State) : Host.Outcome State Fault Refusal :=
  .next (aluResult rd (getReg rs1 s ||| getReg rs2 s) s)

/-- AND, R215. -/
def execAnd (rd rs1 rs2 : Reg) (s : State) : Host.Outcome State Fault Refusal :=
  .next (aluResult rd (getReg rs1 s &&& getReg rs2 s) s)

end Sys2Proof.Machine
end

