-- ==== Sys2Proof/Machine/Branch.lean ====
section
/-! DEFINITION. The six conditional branches (43_branches.md). -/

namespace Sys2Proof.Machine

/-- What all six share: `pc + imm_b` when taken, `pc + 4` otherwise; nothing else is written (R160). -/
def branchIf (taken : Bool) (imm : Word) (s : State) : State :=
  commitPc (if taken then pcRelative imm s else nextPc s) s

/-- BEQ, R161. -/
def execBeq (rs1 rs2 : Reg) (imm : Word) (s : State) : Host.Outcome State Fault Refusal :=
  .next (branchIf (getReg rs1 s == getReg rs2 s) imm s)

/-- BNE, R162. -/
def execBne (rs1 rs2 : Reg) (imm : Word) (s : State) : Host.Outcome State Fault Refusal :=
  .next (branchIf (getReg rs1 s != getReg rs2 s) imm s)

/-- BLT, R163. -/
def execBlt (rs1 rs2 : Reg) (imm : Word) (s : State) : Host.Outcome State Fault Refusal :=
  .next (branchIf (ltSigned (getReg rs1 s) (getReg rs2 s)) imm s)

/-- BGE, R164, the exact negation of BLT's condition. -/
def execBge (rs1 rs2 : Reg) (imm : Word) (s : State) : Host.Outcome State Fault Refusal :=
  .next (branchIf (!ltSigned (getReg rs1 s) (getReg rs2 s)) imm s)

/-- BLTU, R165. -/
def execBltu (rs1 rs2 : Reg) (imm : Word) (s : State) : Host.Outcome State Fault Refusal :=
  .next (branchIf (ltUnsigned (getReg rs1 s) (getReg rs2 s)) imm s)

/-- BGEU, R166, the exact negation of BLTU's condition. -/
def execBgeu (rs1 rs2 : Reg) (imm : Word) (s : State) : Host.Outcome State Fault Refusal :=
  .next (branchIf (!ltUnsigned (getReg rs1 s) (getReg rs2 s)) imm s)

end Sys2Proof.Machine
end

