-- ==== Sys2Proof/Machine/Fence.lean ====
section
/-! DEFINITION. FENCE, a no-operation: there is nothing to order (48_fence.md R220, decision D15, log entry 11). -/

namespace Sys2Proof.Machine

/-- FENCE, R220: the hardware ignores every field of the word; only the pc moves. -/
def execFence (_fm _pred _succ : BitVec 4) (_rs1 _rd : Reg) (s : State) : Host.Outcome State Fault Refusal :=
  .next (commitPc (nextPc s) s)

end Sys2Proof.Machine
end

