-- ==== Sys2Proof/Machine/Jump.lean ====
section
/-! DEFINITION. JAL and JALR (42_jumps.md). -/

namespace Sys2Proof.Machine

/-- JAL, R155: the link value and the target both use the address of the JAL. -/
def execJal (rd : Reg) (imm : Word) (s : State) : Host.Outcome State Fault Refusal :=
  .next (commitReg rd (nextPc s) (pcRelative imm s) s)

/-- JALR, R156: the target is computed from the old `x[rs1]`, before the link is written. -/
def execJalr (rd rs1 : Reg) (imm : Word) (s : State) : Host.Outcome State Fault Refusal :=
  .next (commitReg rd (nextPc s) (jalrTarget rs1 imm s) s)

end Sys2Proof.Machine
end

