-- ==== Sys2Proof/Machine/Load.lean ====
section
/-! DEFINITION. The five loads (44_loads.md). -/

namespace Sys2Proof.Machine

/-- What all five share: the read of n bytes at `x[rs1] + imm_i`, its extension into `x[rd]`, and the next pc (R170).
The read is made, and can warn, also when rd is 0 (30_encoding.md R114). -/
def loadWith (n : Width) (extend : Word → Word) (rd rs1 : Reg) (imm : Word) (s : State) : State :=
  let r := memRead n (effAddr rs1 imm s) s
  commitReg rd (extend r.1) (nextPc s) r.2

/-- LB, R171. -/
def execLb (rd rs1 : Reg) (imm : Word) (s : State) : Host.Outcome State Fault Refusal :=
  .next (loadWith .byte (sext 8) rd rs1 imm s)

/-- LH, R172. -/
def execLh (rd rs1 : Reg) (imm : Word) (s : State) : Host.Outcome State Fault Refusal :=
  .next (loadWith .half (sext 16) rd rs1 imm s)

/-- LW, R173: no extension needed. -/
def execLw (rd rs1 : Reg) (imm : Word) (s : State) : Host.Outcome State Fault Refusal :=
  .next (loadWith .word id rd rs1 imm s)

/-- LBU, R174. -/
def execLbu (rd rs1 : Reg) (imm : Word) (s : State) : Host.Outcome State Fault Refusal :=
  .next (loadWith .byte (zext 8) rd rs1 imm s)

/-- LHU, R175. -/
def execLhu (rd rs1 : Reg) (imm : Word) (s : State) : Host.Outcome State Fault Refusal :=
  .next (loadWith .half (zext 16) rd rs1 imm s)

end Sys2Proof.Machine
end

