-- ==== Sys2Proof/Machine/Store.lean ====
section
/-! DEFINITION. The three stores (45_stores.md). -/

namespace Sys2Proof.Machine

/-- What all three share: the low 8n bits of `x[rs2]` to the n bytes at `x[rs1] + imm_s`, and the next pc (R180). -/
def storeWith (n : Width) (rs1 rs2 : Reg) (imm : Word) (s : State) : State :=
  commitPc (nextPc s) (memWrite n (effAddr rs1 imm s) (getReg rs2 s) s)

/-- SB, R181. -/
def execSb (rs1 rs2 : Reg) (imm : Word) (s : State) : Host.Outcome State Fault Refusal :=
  .next (storeWith .byte rs1 rs2 imm s)

/-- SH, R182. -/
def execSh (rs1 rs2 : Reg) (imm : Word) (s : State) : Host.Outcome State Fault Refusal :=
  .next (storeWith .half rs1 rs2 imm s)

/-- SW, R183. -/
def execSw (rs1 rs2 : Reg) (imm : Word) (s : State) : Host.Outcome State Fault Refusal :=
  .next (storeWith .word rs1 rs2 imm s)

end Sys2Proof.Machine
end

