-- ==== Sys2Proof/Machine/System.lean ====
section
/-! DEFINITION. ECALL, EBREAK and the CSR forms (49_system.md): each is a halt. -/

namespace Sys2Proof.Machine

/-- ECALL, R225: no environment stands behind the call. -/
def execEcall (s : State) : Host.Outcome State Fault Refusal := .next (raiseHalt .ecall s)

/-- EBREAK, R226. -/
def execEbreak (s : State) : Host.Outcome State Fault Refusal := .next (raiseHalt .ebreak s)

/-- What the six CSR forms share: no CSR is read or written, `x[rd]` is not written, the core halts as on any other
illegal word (R230). -/
def haltUnimplementedCsr (s : State) : State := raiseHalt .illegalInstruction s

/-- CSRRW, R231. -/
def execCsrrw (_rd : Reg) (_csr : BitVec 12) (_rs1 : Reg) (s : State) : Host.Outcome State Fault Refusal :=
  .next (haltUnimplementedCsr s)

/-- CSRRS, R232. -/
def execCsrrs (_rd : Reg) (_csr : BitVec 12) (_rs1 : Reg) (s : State) : Host.Outcome State Fault Refusal :=
  .next (haltUnimplementedCsr s)

/-- CSRRC, R233. -/
def execCsrrc (_rd : Reg) (_csr : BitVec 12) (_rs1 : Reg) (s : State) : Host.Outcome State Fault Refusal :=
  .next (haltUnimplementedCsr s)

/-- CSRRWI, R234. -/
def execCsrrwi (_rd : Reg) (_csr : BitVec 12) (_zimm : BitVec 5) (s : State) : Host.Outcome State Fault Refusal :=
  .next (haltUnimplementedCsr s)

/-- CSRRSI, R235. -/
def execCsrrsi (_rd : Reg) (_csr : BitVec 12) (_zimm : BitVec 5) (s : State) : Host.Outcome State Fault Refusal :=
  .next (haltUnimplementedCsr s)

/-- CSRRCI, R236. -/
def execCsrrci (_rd : Reg) (_csr : BitVec 12) (_zimm : BitVec 5) (s : State) : Host.Outcome State Fault Refusal :=
  .next (haltUnimplementedCsr s)

end Sys2Proof.Machine
end

