-- ==== Sys2Proof/Machine/Upper.lean ====
section
/-! DEFINITION. LUI and AUIPC (41_upper_immediate.md). -/

namespace Sys2Proof.Machine

/-- LUI, R150. -/
def execLui (rd : Reg) (imm : Word) (s : State) : Host.Outcome State Fault Refusal :=
  .next (commitReg rd imm (nextPc s) s)

/-- AUIPC, R151: the pc is the address of this AUIPC. -/
def execAuipc (rd : Reg) (imm : Word) (s : State) : Host.Outcome State Fault Refusal :=
  .next (commitReg rd (pcRelative imm s) (nextPc s) s)

end Sys2Proof.Machine
end

