-- ==== Sys2Proof/Machine/Cycle.lean ====
section
/-! DEFINITION. The parts of one step (40_step_cycle.md R130 to R136) that `step` calls: counting, fetch, decode and
execute, the idle step, and the placing of an instruction where the next step fetches it. -/

namespace Sys2Proof.Machine

/-- A step of the halted core: `Idle`, nothing changes (R130, decision D10, log entry 7). The record of the last
step becomes `Idle` with no events. -/
def idle (s : State) : State := { s with outcome := some .idle, events := [] }

/-- A step of the running core begins: `insn_count <- insn_count + 1` (R136), and its list of events is empty. -/
def beginStep (s : State) : State := { s with insnCount := s.insnCount + 1, events := [] }

/-- `insn <- MemRead(pc, 4)`: the bounds-checked read of a data load, at any pc (R131). -/
def fetch (s : State) : Word × State := read32 s.pc s

/-- Decode of the fetched word, then its one handler; a word that is no instruction halts the core (R130, R132;
60_exceptions.md R242). -/
def runWord (insn : Word) (s : State) : Host.Outcome State Fault Refusal :=
  match decode s.cfg.strictDecode insn with
  | .error _ => .next (raiseHalt .illegalInstruction s)
  | .ok i => exec i s

/-- One step (R130). -/
def cycle (s : State) : Host.Outcome State Fault Refusal :=
  if s.halted then .next (idle s)
  else
    let f := fetch (beginStep s)
    runWord f.1 f.2

/-- The four bytes of an instruction stored at the pc, where the next step fetches, and the core running, so that
the next step runs it (log entry 3). A byte outside the memory cannot be stored. -/
def placeWord (insn : Word) (s : State) : State :=
  { write32 s.pc insn s with halted := false, events := s.events }

end Sys2Proof.Machine
end

