-- ==== Sys2Proof/Machine/Step.lean ====
section
/-! DEFINITION. The step (40_step_cycle.md R130). -/

namespace Sys2Proof.Machine

/-- One step: it always gives a next state (R134). -/
def step (s : State) : Host.Outcome State Fault Refusal := cycle s

/-- s with the opcode-table word w of nbits bits stored where step fetches its next instruction. -/
def State.withFetchWord (s : State) (nbits w : Nat) : State := placeWord (tableWord nbits w) s

end Sys2Proof.Machine
end

