-- ==== Sys2Proof/Laws/Decode.lean ====
section
/-! SUPPORT. The fields and immediates of an encoded word, and what the immediates of any word are: the lemmas that
proofs about decode and encode cite. -/

namespace Sys2Proof

/-! ## The fields of each layout (30_encoding.md R91, R92) -/

@[simp] theorem opcode_packR (f7 : BitVec 7) (rs2 rs1 : Reg) (f3 : BitVec 3) (rd : Reg) (op : BitVec 7) : opcode (packR f7 rs2 rs1 f3 rd op) = op := by
  apply BitVec.eq_of_getLsbD_eq
  intro i hi
  simp only [opcode, packR, BitVec.getLsbD_extractLsb', BitVec.getLsbD_append]
  grind

@[simp] theorem fieldRd_packR (f7 : BitVec 7) (rs2 rs1 : Reg) (f3 : BitVec 3) (rd : Reg) (op : BitVec 7) : fieldRd (packR f7 rs2 rs1 f3 rd op) = rd := by
  apply BitVec.eq_of_getLsbD_eq
  intro i hi
  simp only [fieldRd, packR, BitVec.getLsbD_extractLsb', BitVec.getLsbD_append]
  grind

@[simp] theorem funct3_packR (f7 : BitVec 7) (rs2 rs1 : Reg) (f3 : BitVec 3) (rd : Reg) (op : BitVec 7) : funct3 (packR f7 rs2 rs1 f3 rd op) = f3 := by
  apply BitVec.eq_of_getLsbD_eq
  intro i hi
  simp only [funct3, packR, BitVec.getLsbD_extractLsb', BitVec.getLsbD_append]
  grind

@[simp] theorem fieldRs1_packR (f7 : BitVec 7) (rs2 rs1 : Reg) (f3 : BitVec 3) (rd : Reg) (op : BitVec 7) : fieldRs1 (packR f7 rs2 rs1 f3 rd op) = rs1 := by
  apply BitVec.eq_of_getLsbD_eq
  intro i hi
  simp only [fieldRs1, packR, BitVec.getLsbD_extractLsb', BitVec.getLsbD_append]
  grind

@[simp] theorem fieldRs2_packR (f7 : BitVec 7) (rs2 rs1 : Reg) (f3 : BitVec 3) (rd : Reg) (op : BitVec 7) : fieldRs2 (packR f7 rs2 rs1 f3 rd op) = rs2 := by
  apply BitVec.eq_of_getLsbD_eq
  intro i hi
  simp only [fieldRs2, packR, BitVec.getLsbD_extractLsb', BitVec.getLsbD_append]
  grind

@[simp] theorem fieldShamt_packR (f7 : BitVec 7) (rs2 rs1 : Reg) (f3 : BitVec 3) (rd : Reg) (op : BitVec 7) : fieldShamt (packR f7 rs2 rs1 f3 rd op) = rs2 := by
  apply BitVec.eq_of_getLsbD_eq
  intro i hi
  simp only [fieldShamt, packR, BitVec.getLsbD_extractLsb', BitVec.getLsbD_append]
  grind

@[simp] theorem funct7_packR (f7 : BitVec 7) (rs2 rs1 : Reg) (f3 : BitVec 3) (rd : Reg) (op : BitVec 7) : funct7 (packR f7 rs2 rs1 f3 rd op) = f7 := by
  apply BitVec.eq_of_getLsbD_eq
  intro i hi
  simp only [funct7, packR, BitVec.getLsbD_extractLsb', BitVec.getLsbD_append]
  grind

@[simp] theorem opcode_packI (field : BitVec 12) (rs1 : Reg) (f3 : BitVec 3) (rd : Reg) (op : BitVec 7) : opcode (packI field rs1 f3 rd op) = op := by
  apply BitVec.eq_of_getLsbD_eq
  intro i hi
  simp only [opcode, packI, BitVec.getLsbD_extractLsb', BitVec.getLsbD_append]
  grind

@[simp] theorem fieldRd_packI (field : BitVec 12) (rs1 : Reg) (f3 : BitVec 3) (rd : Reg) (op : BitVec 7) : fieldRd (packI field rs1 f3 rd op) = rd := by
  apply BitVec.eq_of_getLsbD_eq
  intro i hi
  simp only [fieldRd, packI, BitVec.getLsbD_extractLsb', BitVec.getLsbD_append]
  grind

@[simp] theorem funct3_packI (field : BitVec 12) (rs1 : Reg) (f3 : BitVec 3) (rd : Reg) (op : BitVec 7) : funct3 (packI field rs1 f3 rd op) = f3 := by
  apply BitVec.eq_of_getLsbD_eq
  intro i hi
  simp only [funct3, packI, BitVec.getLsbD_extractLsb', BitVec.getLsbD_append]
  grind

@[simp] theorem fieldRs1_packI (field : BitVec 12) (rs1 : Reg) (f3 : BitVec 3) (rd : Reg) (op : BitVec 7) : fieldRs1 (packI field rs1 f3 rd op) = rs1 := by
  apply BitVec.eq_of_getLsbD_eq
  intro i hi
  simp only [fieldRs1, packI, BitVec.getLsbD_extractLsb', BitVec.getLsbD_append]
  grind

@[simp] theorem fieldCsr_packI (field : BitVec 12) (rs1 : Reg) (f3 : BitVec 3) (rd : Reg) (op : BitVec 7) : fieldCsr (packI field rs1 f3 rd op) = field := by
  apply BitVec.eq_of_getLsbD_eq
  intro i hi
  simp only [fieldCsr, packI, BitVec.getLsbD_extractLsb', BitVec.getLsbD_append]
  grind

@[simp] theorem opcode_packS (imm : Word) (rs2 rs1 : Reg) (f3 : BitVec 3) (op : BitVec 7) : opcode (packS imm rs2 rs1 f3 op) = op := by
  apply BitVec.eq_of_getLsbD_eq
  intro i hi
  simp only [opcode, packS, BitVec.getLsbD_extractLsb', BitVec.getLsbD_append]
  grind

@[simp] theorem funct3_packS (imm : Word) (rs2 rs1 : Reg) (f3 : BitVec 3) (op : BitVec 7) : funct3 (packS imm rs2 rs1 f3 op) = f3 := by
  apply BitVec.eq_of_getLsbD_eq
  intro i hi
  simp only [funct3, packS, BitVec.getLsbD_extractLsb', BitVec.getLsbD_append]
  grind

@[simp] theorem fieldRs1_packS (imm : Word) (rs2 rs1 : Reg) (f3 : BitVec 3) (op : BitVec 7) : fieldRs1 (packS imm rs2 rs1 f3 op) = rs1 := by
  apply BitVec.eq_of_getLsbD_eq
  intro i hi
  simp only [fieldRs1, packS, BitVec.getLsbD_extractLsb', BitVec.getLsbD_append]
  grind

@[simp] theorem fieldRs2_packS (imm : Word) (rs2 rs1 : Reg) (f3 : BitVec 3) (op : BitVec 7) : fieldRs2 (packS imm rs2 rs1 f3 op) = rs2 := by
  apply BitVec.eq_of_getLsbD_eq
  intro i hi
  simp only [fieldRs2, packS, BitVec.getLsbD_extractLsb', BitVec.getLsbD_append]
  grind

@[simp] theorem opcode_packB (imm : Word) (rs2 rs1 : Reg) (f3 : BitVec 3) (op : BitVec 7) : opcode (packB imm rs2 rs1 f3 op) = op := by
  apply BitVec.eq_of_getLsbD_eq
  intro i hi
  simp only [opcode, packB, BitVec.getLsbD_extractLsb', BitVec.getLsbD_append]
  grind

@[simp] theorem funct3_packB (imm : Word) (rs2 rs1 : Reg) (f3 : BitVec 3) (op : BitVec 7) : funct3 (packB imm rs2 rs1 f3 op) = f3 := by
  apply BitVec.eq_of_getLsbD_eq
  intro i hi
  simp only [funct3, packB, BitVec.getLsbD_extractLsb', BitVec.getLsbD_append]
  grind

@[simp] theorem fieldRs1_packB (imm : Word) (rs2 rs1 : Reg) (f3 : BitVec 3) (op : BitVec 7) : fieldRs1 (packB imm rs2 rs1 f3 op) = rs1 := by
  apply BitVec.eq_of_getLsbD_eq
  intro i hi
  simp only [fieldRs1, packB, BitVec.getLsbD_extractLsb', BitVec.getLsbD_append]
  grind

@[simp] theorem fieldRs2_packB (imm : Word) (rs2 rs1 : Reg) (f3 : BitVec 3) (op : BitVec 7) : fieldRs2 (packB imm rs2 rs1 f3 op) = rs2 := by
  apply BitVec.eq_of_getLsbD_eq
  intro i hi
  simp only [fieldRs2, packB, BitVec.getLsbD_extractLsb', BitVec.getLsbD_append]
  grind

@[simp] theorem opcode_packU (imm : Word) (rd : Reg) (op : BitVec 7) : opcode (packU imm rd op) = op := by
  apply BitVec.eq_of_getLsbD_eq
  intro i hi
  simp only [opcode, packU, BitVec.getLsbD_extractLsb', BitVec.getLsbD_append]
  grind

@[simp] theorem fieldRd_packU (imm : Word) (rd : Reg) (op : BitVec 7) : fieldRd (packU imm rd op) = rd := by
  apply BitVec.eq_of_getLsbD_eq
  intro i hi
  simp only [fieldRd, packU, BitVec.getLsbD_extractLsb', BitVec.getLsbD_append]
  grind

@[simp] theorem opcode_packJ (imm : Word) (rd : Reg) (op : BitVec 7) : opcode (packJ imm rd op) = op := by
  apply BitVec.eq_of_getLsbD_eq
  intro i hi
  simp only [opcode, packJ, BitVec.getLsbD_extractLsb', BitVec.getLsbD_append]
  grind

@[simp] theorem fieldRd_packJ (imm : Word) (rd : Reg) (op : BitVec 7) : fieldRd (packJ imm rd op) = rd := by
  apply BitVec.eq_of_getLsbD_eq
  intro i hi
  simp only [fieldRd, packJ, BitVec.getLsbD_extractLsb', BitVec.getLsbD_append]
  grind

@[simp] theorem fieldFm_packI (fm pred succ : BitVec 4) (rs1 : Reg) (f3 : BitVec 3) (rd : Reg) (op : BitVec 7) :
    fieldFm (packI (fm ++ pred ++ succ) rs1 f3 rd op) = fm := by
  apply BitVec.eq_of_getLsbD_eq
  intro i hi
  simp only [fieldFm, packI, BitVec.getLsbD_extractLsb', BitVec.getLsbD_append]
  grind

@[simp] theorem fieldPred_packI (fm pred succ : BitVec 4) (rs1 : Reg) (f3 : BitVec 3) (rd : Reg) (op : BitVec 7) :
    fieldPred (packI (fm ++ pred ++ succ) rs1 f3 rd op) = pred := by
  apply BitVec.eq_of_getLsbD_eq
  intro i hi
  simp only [fieldPred, packI, BitVec.getLsbD_extractLsb', BitVec.getLsbD_append]
  grind

@[simp] theorem fieldSucc_packI (fm pred succ : BitVec 4) (rs1 : Reg) (f3 : BitVec 3) (rd : Reg) (op : BitVec 7) :
    fieldSucc (packI (fm ++ pred ++ succ) rs1 f3 rd op) = succ := by
  apply BitVec.eq_of_getLsbD_eq
  intro i hi
  simp only [fieldSucc, packI, BitVec.getLsbD_extractLsb', BitVec.getLsbD_append]
  grind

/-! ## A value in the range of a format is its own low bits, sign-extended -/

theorem low_bits (n : Nat) (v : Word) : v.extractLsb' 0 n = v.setWidth n := by
  apply BitVec.eq_of_getLsbD_eq
  intro i hi
  simp [hi]

theorem signExtend_low12 {imm : Word} (h : fitsImm12 imm) : (imm.extractLsb' 0 12).signExtend 32 = imm := by
  simp only [fitsImm12, decide_eq_true_eq] at h
  apply BitVec.eq_of_toInt_eq
  rw [BitVec.toInt_signExtend_of_le (by decide), low_bits, BitVec.toInt_setWidth]
  rw [BitVec.toInt_eq_toNat_bmod] at h ⊢
  have := imm.isLt
  simp only [Int.bmod_def] at *
  omega

theorem signExtend_low13 {imm : Word} (h : fitsImmB imm) : (imm.extractLsb' 0 13).signExtend 32 = imm := by
  simp only [fitsImmB, Bool.and_eq_true, decide_eq_true_eq] at h
  obtain ⟨h, -⟩ := h
  apply BitVec.eq_of_toInt_eq
  rw [BitVec.toInt_signExtend_of_le (by decide), low_bits, BitVec.toInt_setWidth]
  rw [BitVec.toInt_eq_toNat_bmod] at h ⊢
  have := imm.isLt
  simp only [Int.bmod_def] at *
  omega

theorem signExtend_low21 {imm : Word} (h : fitsImmJ imm) : (imm.extractLsb' 0 21).signExtend 32 = imm := by
  simp only [fitsImmJ, Bool.and_eq_true, decide_eq_true_eq] at h
  obtain ⟨h, -⟩ := h
  apply BitVec.eq_of_toInt_eq
  rw [BitVec.toInt_signExtend_of_le (by decide), low_bits, BitVec.toInt_setWidth]
  rw [BitVec.toInt_eq_toNat_bmod] at h ⊢
  have := imm.isLt
  simp only [Int.bmod_def] at *
  omega

/-! ## The immediate of an encoded word is the immediate encoded -/

theorem immI_packI {imm : Word} (h : fitsImm12 imm) (rs1 : Reg) (f3 : BitVec 3) (rd : Reg) (op : BitVec 7) :
    immI (packI (low12 imm) rs1 f3 rd op) = imm := by
  have : (packI (low12 imm) rs1 f3 rd op).extractLsb' 20 12 = low12 imm := fieldCsr_packI ..
  rw [immI, this, low12, signExtend_low12 h]

theorem immS_packS {imm : Word} (h : fitsImm12 imm) (rs2 rs1 : Reg) (f3 : BitVec 3) (op : BitVec 7) :
    immS (packS imm rs2 rs1 f3 op) = imm := by
  have : (packS imm rs2 rs1 f3 op).extractLsb' 25 7 ++ (packS imm rs2 rs1 f3 op).extractLsb' 7 5
      = imm.extractLsb' 0 12 := by
    apply BitVec.eq_of_getLsbD_eq
    intro i hi
    simp only [packS, BitVec.getLsbD_extractLsb', BitVec.getLsbD_append]
    grind
  rw [immS, this, signExtend_low12 h]

theorem immB_packB {imm : Word} (h : fitsImmB imm) (rs2 rs1 : Reg) (f3 : BitVec 3) (op : BitVec 7) :
    immB (packB imm rs2 rs1 f3 op) = imm := by
  have h0 : imm.getLsbD 0 = false := by
    simp only [fitsImmB, Bool.and_eq_true, Bool.not_eq_true'] at h; exact h.2
  have : (packB imm rs2 rs1 f3 op).extractLsb' 31 1 ++ (packB imm rs2 rs1 f3 op).extractLsb' 7 1 ++
      (packB imm rs2 rs1 f3 op).extractLsb' 25 6 ++ (packB imm rs2 rs1 f3 op).extractLsb' 8 4 ++ 0#1
      = imm.extractLsb' 0 13 := by
    apply BitVec.eq_of_getLsbD_eq
    intro i hi
    simp only [packB, BitVec.getLsbD_extractLsb', BitVec.getLsbD_append]
    grind
  rw [immB, this, signExtend_low13 h]

theorem immJ_packJ {imm : Word} (h : fitsImmJ imm) (rd : Reg) (op : BitVec 7) :
    immJ (packJ imm rd op) = imm := by
  have h0 : imm.getLsbD 0 = false := by
    simp only [fitsImmJ, Bool.and_eq_true, Bool.not_eq_true'] at h; exact h.2
  have : (packJ imm rd op).extractLsb' 31 1 ++ (packJ imm rd op).extractLsb' 12 8 ++
      (packJ imm rd op).extractLsb' 20 1 ++ (packJ imm rd op).extractLsb' 21 10 ++ 0#1
      = imm.extractLsb' 0 21 := by
    apply BitVec.eq_of_getLsbD_eq
    intro i hi
    simp only [packJ, BitVec.getLsbD_extractLsb', BitVec.getLsbD_append]
    grind
  rw [immJ, this, signExtend_low21 h]

theorem immU_packU {imm : Word} (h : fitsImmU imm) (rd : Reg) (op : BitVec 7) : immU (packU imm rd op) = imm := by
  have low : ∀ i, i < 12 → imm.getLsbD i = false := by
    intro i hi
    have e : imm &&& 0xFFF#32 = 0#32 := by simpa [fitsImmU] using h
    have := congrArg (fun v => v.getLsbD i) e
    have m : (0xFFF#32).getLsbD i = true := by
      obtain rfl | rfl | rfl | rfl | rfl | rfl | rfl | rfl | rfl | rfl | rfl | rfl : i = 0 ∨ i = 1 ∨ i = 2 ∨ i = 3 ∨
        i = 4 ∨ i = 5 ∨ i = 6 ∨ i = 7 ∨ i = 8 ∨ i = 9 ∨ i = 10 ∨ i = 11 := by omega
      all_goals rfl
    simpa [m] using this
  apply BitVec.eq_of_getLsbD_eq
  intro i hi
  simp only [immU, packU, BitVec.getLsbD_extractLsb', BitVec.getLsbD_append]
  grind

/-! ## The immediates of any word are in range: what decode gives is well-formed -/

theorem fitsImm12_signExtend (v : BitVec 12) : fitsImm12 (v.signExtend 32) := by
  simp only [fitsImm12, decide_eq_true_eq]
  rw [BitVec.toInt_signExtend_of_le (by decide)]
  have := v.toInt_lt
  have := v.le_toInt
  omega

/-- An even value below 2 to the n - 1 is at most that bound less 2. -/
theorem toInt_even {v : Word} (h : v.getLsbD 0 = false) : v.toInt % 2 = 0 := by
  have : v.toNat % 2 = 0 := by
    have := BitVec.getLsbD_eq_getElem (x := v) (i := 0) (by decide)
    rw [BitVec.getLsbD, Nat.testBit_zero] at h
    simpa using h
  rw [BitVec.toInt_eq_toNat_bmod, Int.bmod_def]
  omega

theorem fitsImmB_immB (w : Word) : fitsImmB (immB w) := by
  have h0 : (immB w).getLsbD 0 = false := by
    simp only [immB, BitVec.getLsbD_signExtend, BitVec.getLsbD_append]
    grind
  have he := toInt_even h0
  simp only [fitsImmB, Bool.and_eq_true, decide_eq_true_eq, Bool.not_eq_true', h0, and_true]
  unfold immB at *
  generalize (w.extractLsb' 31 1 ++ w.extractLsb' 7 1 ++ w.extractLsb' 25 6 ++ w.extractLsb' 8 4 ++ 0#1) = v at *
  rw [BitVec.toInt_signExtend_of_le (by decide)] at *
  have := v.toInt_lt
  have := v.le_toInt
  omega

theorem fitsImmJ_immJ (w : Word) : fitsImmJ (immJ w) := by
  have h0 : (immJ w).getLsbD 0 = false := by
    simp only [immJ, BitVec.getLsbD_signExtend, BitVec.getLsbD_append]
    grind
  have he := toInt_even h0
  simp only [fitsImmJ, Bool.and_eq_true, decide_eq_true_eq, Bool.not_eq_true', h0, and_true]
  unfold immJ at *
  generalize (w.extractLsb' 31 1 ++ w.extractLsb' 12 8 ++ w.extractLsb' 20 1 ++ w.extractLsb' 21 10 ++ 0#1) = v at *
  rw [BitVec.toInt_signExtend_of_le (by decide)] at *
  have := v.toInt_lt
  have := v.le_toInt
  omega

theorem fitsImmU_immU (w : Word) : fitsImmU (immU w) := by
  simp only [fitsImmU, beq_iff_eq]
  apply BitVec.eq_of_getLsbD_eq
  intro i hi
  simp only [immU, BitVec.getLsbD_and, BitVec.getLsbD_append, BitVec.getLsbD_zero]
  by_cases h : i < 12
  · simp [h]
  · have : (0xFFF#32).getLsbD i = false := by
      rw [BitVec.getLsbD, BitVec.toNat_ofNat, show 4095 % 2 ^ 32 = 2 ^ 12 - 1 from rfl, Nat.testBit_two_pow_sub_one]
      simp [h]
    simp [this]

/-! ## A masked comparison reads the fields under the mask (opcode_table.json: match and mask) -/

/-- The fields of a word under a mask are those of the match. -/
theorem field_of_masked {w mask value : Word} (h : w &&& mask = value) (lo len : Nat) :
    w.extractLsb' lo len &&& mask.extractLsb' lo len = value.extractLsb' lo len := by
  rw [← BitVec.extractLsb'_and, h]

/-- Every bit of the field is under the mask: the field is that of the match. -/
theorem field_of_mask {w mask value : Word} (h : w &&& mask = value) (lo len : Nat)
    (hm : mask.extractLsb' lo len = BitVec.allOnes len) : w.extractLsb' lo len = value.extractLsb' lo len := by
  have := field_of_masked h lo len
  rwa [hm, BitVec.and_allOnes] at this

/-! ## A word is the pack of its own fields and immediate -/

theorem packR_fields (w : Word) : packR (funct7 w) (fieldRs2 w) (fieldRs1 w) (funct3 w) (fieldRd w) (opcode w) = w := by
  apply BitVec.eq_of_getLsbD_eq
  intro i hi
  simp only [packR, funct7, fieldRs2, fieldRs1, funct3, fieldRd, opcode, BitVec.getLsbD_extractLsb', BitVec.getLsbD_append]
  grind

theorem packI_fields (w : Word) : packI (fieldCsr w) (fieldRs1 w) (funct3 w) (fieldRd w) (opcode w) = w := by
  apply BitVec.eq_of_getLsbD_eq
  intro i hi
  simp only [packI, fieldCsr, fieldRs1, funct3, fieldRd, opcode, BitVec.getLsbD_extractLsb', BitVec.getLsbD_append]
  grind

theorem packS_fields (w : Word) : packS (immS w) (fieldRs2 w) (fieldRs1 w) (funct3 w) (opcode w) = w := by
  apply BitVec.eq_of_getLsbD_eq
  intro i hi
  simp only [packS, immS, fieldRs2, fieldRs1, funct3, opcode, BitVec.getLsbD_extractLsb', BitVec.getLsbD_signExtend, BitVec.getLsbD_append]
  grind

theorem packB_fields (w : Word) : packB (immB w) (fieldRs2 w) (fieldRs1 w) (funct3 w) (opcode w) = w := by
  apply BitVec.eq_of_getLsbD_eq
  intro i hi
  simp only [packB, immB, fieldRs2, fieldRs1, funct3, opcode, BitVec.getLsbD_extractLsb', BitVec.getLsbD_signExtend, BitVec.getLsbD_append]
  grind

theorem packU_fields (w : Word) : packU (immU w) (fieldRd w) (opcode w) = w := by
  apply BitVec.eq_of_getLsbD_eq
  intro i hi
  simp only [packU, immU, fieldRd, opcode, BitVec.getLsbD_extractLsb', BitVec.getLsbD_append]
  grind

theorem packJ_fields (w : Word) : packJ (immJ w) (fieldRd w) (opcode w) = w := by
  apply BitVec.eq_of_getLsbD_eq
  intro i hi
  simp only [packJ, immJ, fieldRd, opcode, BitVec.getLsbD_extractLsb', BitVec.getLsbD_signExtend, BitVec.getLsbD_append]
  grind

theorem low12_immI (w : Word) : low12 (immI w) = fieldCsr w := by
  apply BitVec.eq_of_getLsbD_eq
  intro i hi
  simp only [low12, immI, fieldCsr, BitVec.getLsbD_extractLsb', BitVec.getLsbD_signExtend]
  grind

theorem fence_fields (w : Word) : fieldFm w ++ fieldPred w ++ fieldSucc w = fieldCsr w := by
  apply BitVec.eq_of_getLsbD_eq
  intro i hi
  simp only [fieldFm, fieldPred, fieldSucc, fieldCsr, BitVec.getLsbD_extractLsb', BitVec.getLsbD_append]
  grind

/-! ## What decode gives is well-formed -/

theorem unexamined_ok {strict : Bool} {n : Nat} {field : BitVec n} {i j : Instr}
    (h : unexamined strict field i = .ok j) : j = i ∧ (strict = true → field = 0#n) := by
  unfold unexamined at h
  split at h
  · cases h
  · next hs =>
    cases h
    refine ⟨rfl, fun hst => ?_⟩
    simpa [hst] using hs

theorem decode_wellFormed {strict : Bool} {w : Word} {i : Instr} (h : decode strict w = .ok i) :
    i.wellFormed = true := by
  have hI : fitsImm12 (immI w) := fitsImm12_signExtend _
  have hS : fitsImm12 (immS w) := fitsImm12_signExtend _
  have hB := fitsImmB_immB w
  have hJ := fitsImmJ_immJ w
  have hU := fitsImmU_immU w
  unfold decode at h
  split at h
  · cases h; exact hU
  · cases h; exact hU
  · cases h; exact hJ
  · obtain ⟨rfl, -⟩ := unexamined_ok h; exact hI
  · unfold decodeBranch at h
    split at h <;> cases h <;> exact hB
  · unfold decodeLoad at h
    split at h <;> cases h <;> exact hI
  · unfold decodeStore at h
    split at h <;> cases h <;> exact hS
  · unfold decodeAluImm at h
    split at h
    case h_7 => obtain ⟨rfl, -⟩ := unexamined_ok h; rfl
    case h_8 => split at h <;> cases h <;> rfl
    all_goals cases h; exact hI
  · unfold decodeAluReg at h
    split at h
    case h_1 => split at h <;> cases h <;> rfl
    case h_8 => split at h <;> cases h <;> rfl
    all_goals obtain ⟨rfl, -⟩ := unexamined_ok h; rfl
  · obtain ⟨rfl, -⟩ := unexamined_ok h; rfl
  · unfold decodeSystem at h
    split at h
    · cases h; rfl
    · split at h
      · cases h; rfl
      · split at h <;> cases h <;> rfl
  · cases h

end Sys2Proof
end

