-- ==== Sys2Proof/Laws/PerInstr.lean ====
section
/-! SUPPORT. Per instruction: a well-formed instruction's word decodes to it, under both settings of STRICT_DECODE. -/

namespace Sys2Proof.Laws.RoundTrip

/-- Decoding the encoding of i gives i back. -/
def Statement (i : Instr) : Prop := i.wellFormed = true → ∀ strict : Bool, decode strict (encode i) = .ok i

theorem lui (rd : Reg) (imm : Word) : Statement (.lui rd imm) := by
  intro h strict
  have imm_ok := immU_packU (imm := imm) h
  simp [encode, decode, imm_ok]

theorem auipc (rd : Reg) (imm : Word) : Statement (.auipc rd imm) := by
  intro h strict
  have imm_ok := immU_packU (imm := imm) h
  simp [encode, decode, imm_ok]

theorem jal (rd : Reg) (imm : Word) : Statement (.jal rd imm) := by
  intro h strict
  have imm_ok := immJ_packJ (imm := imm) h
  simp [encode, decode, imm_ok]

theorem jalr (rd rs1 : Reg) (imm : Word) : Statement (.jalr rd rs1 imm) := by
  intro h strict
  have imm_ok := immI_packI (imm := imm) h
  simp [encode, decode, unexamined, imm_ok]

theorem beq (rs1 rs2 : Reg) (imm : Word) : Statement (.beq rs1 rs2 imm) := by
  intro h strict
  have imm_ok := immB_packB (imm := imm) h
  simp [encode, decode, decodeBranch, imm_ok]

theorem bne (rs1 rs2 : Reg) (imm : Word) : Statement (.bne rs1 rs2 imm) := by
  intro h strict
  have imm_ok := immB_packB (imm := imm) h
  simp [encode, decode, decodeBranch, imm_ok]

theorem blt (rs1 rs2 : Reg) (imm : Word) : Statement (.blt rs1 rs2 imm) := by
  intro h strict
  have imm_ok := immB_packB (imm := imm) h
  simp [encode, decode, decodeBranch, imm_ok]

theorem bge (rs1 rs2 : Reg) (imm : Word) : Statement (.bge rs1 rs2 imm) := by
  intro h strict
  have imm_ok := immB_packB (imm := imm) h
  simp [encode, decode, decodeBranch, imm_ok]

theorem bltu (rs1 rs2 : Reg) (imm : Word) : Statement (.bltu rs1 rs2 imm) := by
  intro h strict
  have imm_ok := immB_packB (imm := imm) h
  simp [encode, decode, decodeBranch, imm_ok]

theorem bgeu (rs1 rs2 : Reg) (imm : Word) : Statement (.bgeu rs1 rs2 imm) := by
  intro h strict
  have imm_ok := immB_packB (imm := imm) h
  simp [encode, decode, decodeBranch, imm_ok]

theorem lb (rd rs1 : Reg) (imm : Word) : Statement (.lb rd rs1 imm) := by
  intro h strict
  have imm_ok := immI_packI (imm := imm) h
  simp [encode, decode, decodeLoad, imm_ok]

theorem lh (rd rs1 : Reg) (imm : Word) : Statement (.lh rd rs1 imm) := by
  intro h strict
  have imm_ok := immI_packI (imm := imm) h
  simp [encode, decode, decodeLoad, imm_ok]

theorem lw (rd rs1 : Reg) (imm : Word) : Statement (.lw rd rs1 imm) := by
  intro h strict
  have imm_ok := immI_packI (imm := imm) h
  simp [encode, decode, decodeLoad, imm_ok]

theorem lbu (rd rs1 : Reg) (imm : Word) : Statement (.lbu rd rs1 imm) := by
  intro h strict
  have imm_ok := immI_packI (imm := imm) h
  simp [encode, decode, decodeLoad, imm_ok]

theorem lhu (rd rs1 : Reg) (imm : Word) : Statement (.lhu rd rs1 imm) := by
  intro h strict
  have imm_ok := immI_packI (imm := imm) h
  simp [encode, decode, decodeLoad, imm_ok]

theorem sb (rs1 rs2 : Reg) (imm : Word) : Statement (.sb rs1 rs2 imm) := by
  intro h strict
  have imm_ok := immS_packS (imm := imm) h
  simp [encode, decode, decodeStore, imm_ok]

theorem sh (rs1 rs2 : Reg) (imm : Word) : Statement (.sh rs1 rs2 imm) := by
  intro h strict
  have imm_ok := immS_packS (imm := imm) h
  simp [encode, decode, decodeStore, imm_ok]

theorem sw (rs1 rs2 : Reg) (imm : Word) : Statement (.sw rs1 rs2 imm) := by
  intro h strict
  have imm_ok := immS_packS (imm := imm) h
  simp [encode, decode, decodeStore, imm_ok]

theorem addi (rd rs1 : Reg) (imm : Word) : Statement (.addi rd rs1 imm) := by
  intro h strict
  have imm_ok := immI_packI (imm := imm) h
  simp [encode, decode, decodeAluImm, imm_ok]

theorem slti (rd rs1 : Reg) (imm : Word) : Statement (.slti rd rs1 imm) := by
  intro h strict
  have imm_ok := immI_packI (imm := imm) h
  simp [encode, decode, decodeAluImm, imm_ok]

theorem sltiu (rd rs1 : Reg) (imm : Word) : Statement (.sltiu rd rs1 imm) := by
  intro h strict
  have imm_ok := immI_packI (imm := imm) h
  simp [encode, decode, decodeAluImm, imm_ok]

theorem xori (rd rs1 : Reg) (imm : Word) : Statement (.xori rd rs1 imm) := by
  intro h strict
  have imm_ok := immI_packI (imm := imm) h
  simp [encode, decode, decodeAluImm, imm_ok]

theorem ori (rd rs1 : Reg) (imm : Word) : Statement (.ori rd rs1 imm) := by
  intro h strict
  have imm_ok := immI_packI (imm := imm) h
  simp [encode, decode, decodeAluImm, imm_ok]

theorem andi (rd rs1 : Reg) (imm : Word) : Statement (.andi rd rs1 imm) := by
  intro h strict
  have imm_ok := immI_packI (imm := imm) h
  simp [encode, decode, decodeAluImm, imm_ok]

theorem slli (rd rs1 : Reg) (shamt : BitVec 5) : Statement (.slli rd rs1 shamt) := by
  intro _ strict
  simp [encode, decode, decodeAluImm, unexamined]

theorem srli (rd rs1 : Reg) (shamt : BitVec 5) : Statement (.srli rd rs1 shamt) := by
  intro _ strict
  simp [encode, decode, decodeAluImm]

theorem srai (rd rs1 : Reg) (shamt : BitVec 5) : Statement (.srai rd rs1 shamt) := by
  intro _ strict
  simp [encode, decode, decodeAluImm]

theorem add (rd rs1 rs2 : Reg) : Statement (.add rd rs1 rs2) := by
  intro _ strict
  simp [encode, decode, decodeAluReg]

theorem sub (rd rs1 rs2 : Reg) : Statement (.sub rd rs1 rs2) := by
  intro _ strict
  simp [encode, decode, decodeAluReg]

theorem sll (rd rs1 rs2 : Reg) : Statement (.sll rd rs1 rs2) := by
  intro _ strict
  simp [encode, decode, decodeAluReg, unexamined]

theorem slt (rd rs1 rs2 : Reg) : Statement (.slt rd rs1 rs2) := by
  intro _ strict
  simp [encode, decode, decodeAluReg, unexamined]

theorem sltu (rd rs1 rs2 : Reg) : Statement (.sltu rd rs1 rs2) := by
  intro _ strict
  simp [encode, decode, decodeAluReg, unexamined]

theorem xor (rd rs1 rs2 : Reg) : Statement (.xor rd rs1 rs2) := by
  intro _ strict
  simp [encode, decode, decodeAluReg, unexamined]

theorem srl (rd rs1 rs2 : Reg) : Statement (.srl rd rs1 rs2) := by
  intro _ strict
  simp [encode, decode, decodeAluReg]

theorem sra (rd rs1 rs2 : Reg) : Statement (.sra rd rs1 rs2) := by
  intro _ strict
  simp [encode, decode, decodeAluReg]

theorem or (rd rs1 rs2 : Reg) : Statement (.or rd rs1 rs2) := by
  intro _ strict
  simp [encode, decode, decodeAluReg, unexamined]

theorem and (rd rs1 rs2 : Reg) : Statement (.and rd rs1 rs2) := by
  intro _ strict
  simp [encode, decode, decodeAluReg, unexamined]

theorem fence (fm pred succ : BitVec 4) (rs1 rd : Reg) : Statement (.fence fm pred succ rs1 rd) := by
  intro _ strict
  simp [encode, decode, unexamined]

theorem ecall : Statement .ecall := by
  intro _ strict
  cases strict <;> rfl

theorem ebreak : Statement .ebreak := by
  intro _ strict
  cases strict <;> rfl

/-- A system word with a nonzero funct3 is neither ECALL nor EBREAK (30_encoding.md R110). -/
theorem packI_ne_whole (csr : BitVec 12) (rs1 rd : Reg) {f3 : BitVec 3} (h : f3 ≠ 0b000#3) :
    packI csr rs1 f3 rd 0b1110011#7 ≠ 0x00000073#32 ∧ packI csr rs1 f3 rd 0b1110011#7 ≠ 0x00100073#32 := by
  constructor
  all_goals
    intro e
    apply h
    rw [← funct3_packI csr rs1 f3 rd 0b1110011#7, e]
    rfl

theorem csrrw (rd : Reg) (csr : BitVec 12) (rs1 : Reg) : Statement (.csrrw rd csr rs1) := by
  intro _ strict
  have n := packI_ne_whole csr rs1 rd (f3 := 0b001#3) (by decide)
  simp [encode, decode, decodeSystem, n.1, n.2]

theorem csrrs (rd : Reg) (csr : BitVec 12) (rs1 : Reg) : Statement (.csrrs rd csr rs1) := by
  intro _ strict
  have n := packI_ne_whole csr rs1 rd (f3 := 0b010#3) (by decide)
  simp [encode, decode, decodeSystem, n.1, n.2]

theorem csrrc (rd : Reg) (csr : BitVec 12) (rs1 : Reg) : Statement (.csrrc rd csr rs1) := by
  intro _ strict
  have n := packI_ne_whole csr rs1 rd (f3 := 0b011#3) (by decide)
  simp [encode, decode, decodeSystem, n.1, n.2]

theorem csrrwi (rd : Reg) (csr : BitVec 12) (zimm : BitVec 5) : Statement (.csrrwi rd csr zimm) := by
  intro _ strict
  have n := packI_ne_whole csr zimm rd (f3 := 0b101#3) (by decide)
  simp [encode, decode, decodeSystem, n.1, n.2]

theorem csrrsi (rd : Reg) (csr : BitVec 12) (zimm : BitVec 5) : Statement (.csrrsi rd csr zimm) := by
  intro _ strict
  have n := packI_ne_whole csr zimm rd (f3 := 0b110#3) (by decide)
  simp [encode, decode, decodeSystem, n.1, n.2]

theorem csrrci (rd : Reg) (csr : BitVec 12) (zimm : BitVec 5) : Statement (.csrrci rd csr zimm) := by
  intro _ strict
  have n := packI_ne_whole csr zimm rd (f3 := 0b111#3) (by decide)
  simp [encode, decode, decodeSystem, n.1, n.2]

end Sys2Proof.Laws.RoundTrip
end

