-- ==== Sys2Proof/Laws/Memory.lean ====
section
/-! SUPPORT. The laws of the memory list: read after write, every other address unchanged, and the canonical form
kept by every operation. -/

namespace Sys2Proof.Machine

theorem readCell_consCell (a b : Nat) (v : Byte) (rest : Memory) :
    readCell b (consCell a v rest) =
      if a = b then (if v = memFill then readCell b rest else v) else readCell b rest := by
  unfold consCell
  split <;> split <;> simp_all [readCell]

/-- An address below every listed one reads as the fill. -/
theorem readCell_of_lt {a : Nat} {m : Memory} (h : ∀ c ∈ m, a < c.1) : readCell a m = memFill := by
  induction m with
  | nil => rfl
  | cons c rest ih =>
    have hc := h c (by simp)
    have : c.1 ≠ a := by omega
    simp [readCell, this, ih fun d hd => h d (by simp [hd])]

/-- A write leaves every other cell alone, whatever the list. -/
theorem readCell_writeCell_other {a b : Nat} (h : a ≠ b) (v : Byte) (m : Memory) :
    readCell b (writeCell a v m) = readCell b m := by
  induction m with
  | nil => simp [writeCell, readCell_consCell, h]
  | cons c rest ih =>
    obtain ⟨k, w⟩ := c
    unfold writeCell
    split
    · simp [readCell_consCell, h]
    · split
      · next _ e => subst e; simp [readCell_consCell, readCell, h]
      · simp [readCell, ih]

/-- A read after a write to the same cell gives the value written. -/
theorem readCell_writeCell_same (a : Nat) (v : Byte) {m : Memory} (h : m.wf) :
    readCell a (writeCell a v m) = v := by
  induction m with
  | nil => simp only [writeCell, readCell_consCell]; split <;> simp_all [readCell]
  | cons c rest ih =>
    obtain ⟨k, w⟩ := c
    have hs := List.pairwise_cons.mp h.1
    have hr : Memory.wf rest := ⟨hs.2, fun d hd => h.2 d (by simp [hd])⟩
    unfold writeCell
    split
    · next hlt =>
      have : readCell a ((k, w) :: rest) = memFill := readCell_of_lt (by
        intro d hd
        rcases List.mem_cons.mp hd with rfl | hd
        · exact hlt
        · exact Nat.lt_trans hlt (hs.1 d hd))
      simp only [readCell_consCell, if_true, this]; split <;> simp_all
    · split
      · next _ e =>
        subst e
        have : readCell a rest = memFill := readCell_of_lt hs.1
        simp only [readCell_consCell, if_true, this]; split <;> simp_all
      · next _ hne =>
        have hk : k ≠ a := fun e => hne e.symm
        simp [readCell, hk, ih hr]

/-- Every entry of a written list is an old one or the byte written. -/
theorem mem_writeCell {a : Nat} {v : Byte} {m : Memory} {c : Host.Cell} (h : c ∈ writeCell a v m) :
    c ∈ m ∨ (c = (a, v) ∧ v ≠ memFill) := by
  have cons : ∀ rest : Memory, c ∈ consCell a v rest → c ∈ rest ∨ (c = (a, v) ∧ v ≠ memFill) := by
    intro rest hc
    unfold consCell at hc
    split at hc
    · exact .inl hc
    · next hv => rcases List.mem_cons.mp hc with rfl | hc
                 · exact .inr ⟨rfl, hv⟩
                 · exact .inl hc
  induction m with
  | nil => exact cons _ h
  | cons d rest ih =>
    obtain ⟨k, w⟩ := d
    unfold writeCell at h
    split at h
    · exact cons _ h
    · split at h
      · exact (cons _ h).imp_left fun hc => by simp [hc]
      · rcases List.mem_cons.mp h with rfl | h
        · simp
        · exact (ih h).imp_left fun hc => by simp [hc]

/-- The canonical form is kept. -/
theorem writeCell_wf (a : Nat) (v : Byte) {m : Memory} (h : m.wf) : (writeCell a v m).wf := by
  refine ⟨?_, fun c hc => ?_⟩
  · have cons : ∀ rest : Memory, rest.Pairwise (fun c d => c.1 < d.1) → (∀ c ∈ rest, a < c.1) →
        (consCell a v rest).Pairwise (fun c d => c.1 < d.1) := by
      intro rest hp hlt
      unfold consCell
      split
      · exact hp
      · exact List.pairwise_cons.mpr ⟨hlt, hp⟩
    have hp := h.1
    clear h
    induction m with
    | nil => exact cons _ (by simp) (by simp)
    | cons d rest ih =>
      obtain ⟨k, w⟩ := d
      have hs := List.pairwise_cons.mp hp
      unfold writeCell
      split
      · next hlt =>
        refine cons _ hp fun c hc => ?_
        rcases List.mem_cons.mp hc with rfl | hc
        · exact hlt
        · exact Nat.lt_trans hlt (hs.1 c hc)
      · split
        · next _ e => subst e; exact cons _ hs.2 hs.1
        · refine List.pairwise_cons.mpr ⟨fun c hc => ?_, ih hs.2⟩
          rcases mem_writeCell hc with hc | ⟨rfl, _⟩
          · exact hs.1 c hc
          · show k < a
            omega
  · rcases mem_writeCell hc with hc | ⟨rfl, hv⟩
    · exact h.2 c hc
    · exact hv

/-- Only addresses of the array are ever listed. -/
theorem writeCell_within {a size : Nat} (ha : a < size) (v : Byte) {m : Memory} (h : m.within size) :
    (writeCell a v m).within size := by
  intro c hc
  rcases mem_writeCell hc with hc | ⟨rfl, _⟩
  · exact h c hc
  · exact ha

theorem writeCells_wf (base : Nat) (bytes : List Byte) {m : Memory} (h : m.wf) : (writeCells base bytes m).wf := by
  induction bytes generalizing base m with
  | nil => exact h
  | cons b bytes ih => exact ih (base + 1) (writeCell_wf base b h)

theorem writeCells_within {base size : Nat} (bytes : List Byte) (hb : base + bytes.length ≤ size) {m : Memory}
    (h : m.within size) : (writeCells base bytes m).within size := by
  induction bytes generalizing base m with
  | nil => exact h
  | cons b bytes ih =>
    have hl : base + (bytes.length + 1) ≤ size := hb
    exact ih (base := base + 1) (by omega) (writeCell_within (by omega) b h)

/-- A block write leaves every cell outside the block alone. -/
theorem readCell_writeCells_outside {base a : Nat} (bytes : List Byte) (h : a < base ∨ base + bytes.length ≤ a)
    (m : Memory) : readCell a (writeCells base bytes m) = readCell a m := by
  induction bytes generalizing base m with
  | nil => rfl
  | cons b bytes ih =>
    have hl : a < base ∨ base + (bytes.length + 1) ≤ a := h
    rw [writeCells, ih (base := base + 1) (by omega), readCell_writeCell_other (by omega)]

/-- A block write puts byte k of the block at base + k. -/
theorem readCell_writeCells_inside {base k : Nat} (bytes : List Byte) (h : k < bytes.length) {m : Memory}
    (hm : m.wf) : readCell (base + k) (writeCells base bytes m) = bytes[k] := by
  induction bytes generalizing base k m with
  | nil => exact absurd h (Nat.not_lt_zero k)
  | cons b bytes ih =>
    cases k with
    | zero =>
      rw [writeCells, readCell_writeCells_outside bytes (by omega), Nat.add_zero, readCell_writeCell_same _ _ hm]
      rfl
    | succ k =>
      have := ih (base := base + 1) (k := k) (by simpa using h) (writeCell_wf base b hm)
      rw [writeCells, show base + (k + 1) = base + 1 + k by omega, this]
      rfl

end Sys2Proof.Machine
end

