-- ==== Sys2Proof/Machine/Run.lean ====
section
/-! DEFINITION. The operations of the surroundings other than step and reset (15_interfaces.md R41): construction,
image load, start of run, and the run loop with its limit (40_step_cycle.md R140, R141). -/

namespace Sys2Proof.Machine

/-- Construction: the memory with MEM_SIZE bytes, all MEM_FILL, refused outside the admissible capacities
(70_reset_and_hazards.md R270, 20_memory.md R60, 93_implementation_defined.md A10). The engine is reset as part of
it, so that no state is undefined (10_state.md R35, decision D19, log entry 14). -/
def construct (c : Config) : Option State :=
  if c.legal then some { State.reset with cfg := c } else none

/-- Image load: accepted iff L <= MEM_SIZE, and then only `mem[0 .. L-1]` change (70_reset_and_hazards.md R274,
90_conflicts.md C2). A failed load gives no state, so no step follows it (R275). -/
def loadImage (image : List Byte) (s : State) : Option State :=
  if image.length ≤ s.cfg.memSize then some { s with mem := writeCells imageBase image s.mem } else none

/-- Start of run: `x[2] <- MEM_SIZE` as a 32-bit value (70_reset_and_hazards.md R276). -/
def startRun (s : State) : State := setReg 2#5 (BitVec.ofNat 32 s.cfg.memSize) s

/-- The limit is compared before each step: it is reached unless INSN_LIMIT = none or insn_count < INSN_LIMIT
(40_step_cycle.md R140, decision D16, log entry 13). -/
def limitReached (s : State) : Bool :=
  match s.cfg.insnLimit with
  | none => false
  | some n => decide (n ≤ s.insnCount)

/-- How a run of at most so many steps ends: with the final state and the events of all its steps in order. -/
inductive RunEnd where
  /-- The loop of R140 exited: stopped by halt or by limit (R141). -/
  | ended (s : State) (events : List Event)
  /-- The fuel ran out first; a run need not end (70_reset_and_hazards.md R285). -/
  | outOfFuel (s : State) (events : List Event)
  /-- A step faulted. No step does. -/
  | faulted (r : Fault)
  /-- A step was refused. No step is. -/
  | refused (r : Refusal)
  deriving DecidableEq, Repr

/-- `while (not halted) and (INSN_LIMIT = none or insn_count < INSN_LIMIT): step()`, at most fuel times (R140). -/
def runLoop (fuel : Nat) (s : State) (events : List Event) : RunEnd :=
  if s.halted || limitReached s then .ended s events
  else
    match fuel with
    | 0 => .outOfFuel s events
    | k + 1 =>
      match step s with
      | .next t => runLoop k t (events ++ t.events)
      | .fault r => .faulted r
      | .refused r => .refused r

/-- A run: start of run, then the loop (R140). -/
def run (fuel : Nat) (s : State) : RunEnd := runLoop fuel (startRun s) []

/-- The run-end test: the word at the final pc is the breakpoint encoding (15_interfaces.md R48). -/
def atBreakpoint (s : State) : Bool := peek32 s.pc s == 0x00100073#32

end Sys2Proof.Machine
end

