-- ==== Sys2Proof/Safety.lean ====
section
/-! DEFINITION. What a safe step and a safe run are, in the terms claims use, and the invariant that every step keeps. -/

namespace Sys2Proof.Machine

/-- The warnings of one access of n bytes at a: one for each of its bytes that is out of range, lowest offset first
(20_memory.md R66, R74; the order is decision D4, log entry 5). -/
def accessEvents (n : Width) (a : Word) (s : State) : List Event :=
  ((List.range n.bytes).filter fun k => !inRange (a + BitVec.ofNat 32 k) s).map
    fun k => .outOfRange (a + BitVec.ofNat 32 k)

/-- The last step made no out-of-range access (60_exceptions.md R262: the property to state over the event list). -/
abbrev State.noWarning (s : State) : Prop := s.events = []

/-- The step from s makes no out-of-range access. -/
def safeStep (s : State) : Prop := ∃ t, step s = .next t ∧ t.noWarning

/-- The run from s ends within the fuel and no step of it made an out-of-range access. -/
def safeRun (fuel : Nat) (s : State) : Prop := ∃ t, run fuel s = .ended t []

/-- The invariant of the machine: the memory list is canonical (and so equal memories are equal lists) and names
only cells of the array (10_state.md R32); slot 0 of the register file holds 0 (10_state.md R21); the pc is even
(10_state.md R26). -/
structure State.Inv (s : State) : Prop where
  memory : Memory.wf s.mem
  within : Memory.within s.cfg.memSize s.mem
  zero : s.x[0] = 0#32
  evenPc : s.pc.getLsbD 0 = false

end Sys2Proof.Machine
end

