-- ==== Sys2Proof/Laws/State.lean ====
section
/-! SUPPORT. One lemma per field per update of the state, so that no later proof unfolds a record update, and what a
register reads as after each update. -/

namespace Sys2Proof.Machine

/-! ## Register write -/

@[simp] theorem setReg_pc (r : Reg) (v : Word) (s : State) : (setReg r v s).pc = s.pc := by
  unfold setReg; split <;> rfl

@[simp] theorem setReg_mem (r : Reg) (v : Word) (s : State) : (setReg r v s).mem = s.mem := by
  unfold setReg; split <;> rfl

@[simp] theorem setReg_halted (r : Reg) (v : Word) (s : State) : (setReg r v s).halted = s.halted := by
  unfold setReg; split <;> rfl

@[simp] theorem setReg_insnCount (r : Reg) (v : Word) (s : State) : (setReg r v s).insnCount = s.insnCount := by
  unfold setReg; split <;> rfl

@[simp] theorem setReg_cfg (r : Reg) (v : Word) (s : State) : (setReg r v s).cfg = s.cfg := by
  unfold setReg; split <;> rfl

@[simp] theorem setReg_outcome (r : Reg) (v : Word) (s : State) : (setReg r v s).outcome = s.outcome := by
  unfold setReg; split <;> rfl

@[simp] theorem setReg_events (r : Reg) (v : Word) (s : State) : (setReg r v s).events = s.events := by
  unfold setReg; split <;> rfl

/-! ## warn -/

@[simp] theorem warn_x (a : Word) (s : State) : (warn a s).x = s.x := rfl

@[simp] theorem warn_pc (a : Word) (s : State) : (warn a s).pc = s.pc := rfl

@[simp] theorem warn_mem (a : Word) (s : State) : (warn a s).mem = s.mem := rfl

@[simp] theorem warn_halted (a : Word) (s : State) : (warn a s).halted = s.halted := rfl

@[simp] theorem warn_insnCount (a : Word) (s : State) : (warn a s).insnCount = s.insnCount := rfl

@[simp] theorem warn_cfg (a : Word) (s : State) : (warn a s).cfg = s.cfg := rfl

@[simp] theorem warn_outcome (a : Word) (s : State) : (warn a s).outcome = s.outcome := rfl

@[simp] theorem warn_events (a : Word) (s : State) : (warn a s).events = s.events ++ [.outOfRange a] := rfl

/-! ## raiseHalt -/

@[simp] theorem raiseHalt_x (c : HaltCause) (s : State) : (raiseHalt c s).x = s.x := rfl

@[simp] theorem raiseHalt_pc (c : HaltCause) (s : State) : (raiseHalt c s).pc = s.pc := rfl

@[simp] theorem raiseHalt_mem (c : HaltCause) (s : State) : (raiseHalt c s).mem = s.mem := rfl

@[simp] theorem raiseHalt_halted (c : HaltCause) (s : State) : (raiseHalt c s).halted = true := rfl

@[simp] theorem raiseHalt_insnCount (c : HaltCause) (s : State) : (raiseHalt c s).insnCount = s.insnCount := rfl

@[simp] theorem raiseHalt_cfg (c : HaltCause) (s : State) : (raiseHalt c s).cfg = s.cfg := rfl

@[simp] theorem raiseHalt_outcome (c : HaltCause) (s : State) : (raiseHalt c s).outcome = some (.halted c) := rfl

@[simp] theorem raiseHalt_events (c : HaltCause) (s : State) : (raiseHalt c s).events = s.events := rfl

/-! ## commitPc -/

@[simp] theorem commitPc_x (t : Word) (s : State) : (commitPc t s).x = s.x := rfl

@[simp] theorem commitPc_pc (t : Word) (s : State) : (commitPc t s).pc = t := rfl

@[simp] theorem commitPc_mem (t : Word) (s : State) : (commitPc t s).mem = s.mem := rfl

@[simp] theorem commitPc_halted (t : Word) (s : State) : (commitPc t s).halted = s.halted := rfl

@[simp] theorem commitPc_insnCount (t : Word) (s : State) : (commitPc t s).insnCount = s.insnCount := rfl

@[simp] theorem commitPc_cfg (t : Word) (s : State) : (commitPc t s).cfg = s.cfg := rfl

@[simp] theorem commitPc_outcome (t : Word) (s : State) : (commitPc t s).outcome = some .retired := rfl

@[simp] theorem commitPc_events (t : Word) (s : State) : (commitPc t s).events = s.events := rfl

/-! ## commitReg -/

@[simp] theorem commitReg_x (r : Reg) (v t : Word) (s : State) : (commitReg r v t s).x = (setReg r v s).x := rfl

@[simp] theorem commitReg_pc (r : Reg) (v t : Word) (s : State) : (commitReg r v t s).pc = t := rfl

@[simp] theorem commitReg_mem (r : Reg) (v t : Word) (s : State) : (commitReg r v t s).mem = s.mem := by simp [commitReg]

@[simp] theorem commitReg_halted (r : Reg) (v t : Word) (s : State) : (commitReg r v t s).halted = s.halted := by simp [commitReg]

@[simp] theorem commitReg_insnCount (r : Reg) (v t : Word) (s : State) : (commitReg r v t s).insnCount = s.insnCount := by simp [commitReg]

@[simp] theorem commitReg_cfg (r : Reg) (v t : Word) (s : State) : (commitReg r v t s).cfg = s.cfg := by simp [commitReg]

@[simp] theorem commitReg_outcome (r : Reg) (v t : Word) (s : State) : (commitReg r v t s).outcome = some .retired := rfl

@[simp] theorem commitReg_events (r : Reg) (v t : Word) (s : State) : (commitReg r v t s).events = s.events := by simp [commitReg]

/-! ## resetEngine -/

@[simp] theorem resetEngine_x (s : State) : (resetEngine s).x = resetRegs := rfl

@[simp] theorem resetEngine_pc (s : State) : (resetEngine s).pc = pcReset := rfl

@[simp] theorem resetEngine_mem (s : State) : (resetEngine s).mem = s.mem := rfl

@[simp] theorem resetEngine_halted (s : State) : (resetEngine s).halted = false := rfl

@[simp] theorem resetEngine_insnCount (s : State) : (resetEngine s).insnCount = 0 := rfl

@[simp] theorem resetEngine_cfg (s : State) : (resetEngine s).cfg = s.cfg := rfl

@[simp] theorem resetEngine_outcome (s : State) : (resetEngine s).outcome = none := rfl

@[simp] theorem resetEngine_events (s : State) : (resetEngine s).events = [] := rfl

/-! ## idle -/

@[simp] theorem idle_x (s : State) : (idle s).x = s.x := rfl

@[simp] theorem idle_pc (s : State) : (idle s).pc = s.pc := rfl

@[simp] theorem idle_mem (s : State) : (idle s).mem = s.mem := rfl

@[simp] theorem idle_halted (s : State) : (idle s).halted = s.halted := rfl

@[simp] theorem idle_insnCount (s : State) : (idle s).insnCount = s.insnCount := rfl

@[simp] theorem idle_cfg (s : State) : (idle s).cfg = s.cfg := rfl

@[simp] theorem idle_outcome (s : State) : (idle s).outcome = some .idle := rfl

@[simp] theorem idle_events (s : State) : (idle s).events = [] := rfl

/-! ## beginStep -/

@[simp] theorem beginStep_x (s : State) : (beginStep s).x = s.x := rfl

@[simp] theorem beginStep_pc (s : State) : (beginStep s).pc = s.pc := rfl

@[simp] theorem beginStep_mem (s : State) : (beginStep s).mem = s.mem := rfl

@[simp] theorem beginStep_halted (s : State) : (beginStep s).halted = s.halted := rfl

@[simp] theorem beginStep_insnCount (s : State) : (beginStep s).insnCount = s.insnCount + 1 := rfl

@[simp] theorem beginStep_cfg (s : State) : (beginStep s).cfg = s.cfg := rfl

@[simp] theorem beginStep_outcome (s : State) : (beginStep s).outcome = s.outcome := rfl

@[simp] theorem beginStep_events (s : State) : (beginStep s).events = [] := rfl

/-! ## What a register reads as -/

theorem getReg_congr {s t : State} (h : t.x = s.x) (r : Reg) : getReg r t = getReg r s := by
  simp [getReg, h]

@[simp] theorem getReg_zero (s : State) : getReg 0#5 s = 0#32 := rfl

theorem getReg_setReg_same {r : Reg} (h : r ≠ 0#5) (v : Word) (s : State) : getReg r (setReg r v s) = v := by
  simp [getReg, setReg, h]

theorem getReg_setReg_other {r q : Reg} (h : q ≠ r) (v : Word) (s : State) :
    getReg q (setReg r v s) = getReg q s := by
  have hn : r.toNat ≠ q.toNat := fun e => h (BitVec.eq_of_toNat_eq e.symm)
  unfold getReg setReg
  split
  · rfl
  · split
    · rfl
    · simp [Vector.getElem_set_ne, hn]

@[simp] theorem setReg_zero (v : Word) (s : State) : setReg 0#5 v s = s := rfl

@[simp] theorem getReg_warn (q : Reg) (a : Word) (s : State) : getReg q (warn a s) = getReg q s := rfl

@[simp] theorem getReg_raiseHalt (q : Reg) (c : HaltCause) (s : State) : getReg q (raiseHalt c s) = getReg q s := rfl

@[simp] theorem getReg_commitPc (q : Reg) (t : Word) (s : State) : getReg q (commitPc t s) = getReg q s := rfl

@[simp] theorem getReg_idle (q : Reg) (s : State) : getReg q (idle s) = getReg q s := rfl

@[simp] theorem getReg_beginStep (q : Reg) (s : State) : getReg q (beginStep s) = getReg q s := rfl

@[simp] theorem getReg_commitReg (q r : Reg) (v t : Word) (s : State) :
    getReg q (commitReg r v t s) = getReg q (setReg r v s) := rfl

/-- Slot 0 of the register file is never written. -/
theorem setReg_slot_zero (r : Reg) (v : Word) (s : State) : (setReg r v s).x[0] = s.x[0] := by
  unfold setReg
  split
  · rfl
  · next h =>
    have hn : r.toNat ≠ 0 := fun e => h (BitVec.eq_of_toNat_eq (by simpa using e))
    simp [Vector.getElem_set_ne, hn]

/-! ## The range predicate and the observers read the memory and the parameters alone -/

theorem inRange_congr {s t : State} (h : t.cfg = s.cfg) (a : Word) : inRange a t = inRange a s := by
  simp [inRange, h]

theorem peek8_congr {s t : State} (hc : t.cfg = s.cfg) (hm : t.mem = s.mem) (a : Word) : peek8 a t = peek8 a s := by
  simp [peek8, inRange_congr hc, hm]

theorem peek32_congr {s t : State} (hc : t.cfg = s.cfg) (hm : t.mem = s.mem) (a : Word) :
    peek32 a t = peek32 a s := by
  simp [peek32, peek8_congr hc hm]

theorem accessEvents_congr {s t : State} (h : t.cfg = s.cfg) (n : Width) (a : Word) :
    accessEvents n a t = accessEvents n a s := by
  simp [accessEvents, inRange_congr h]

end Sys2Proof.Machine
end

