-- ==== Sys2Proof/Laws/Ops.lean ====
section
/-! SUPPORT. Each memory access says once what it does: the value read, the bytes written, the warnings, and that it
changes nothing else. Later proofs cite these and unfold no access. -/

namespace Sys2Proof.Machine

/-- s after the warnings es: no other field changes. -/
def addEvents (es : List Event) (s : State) : State := { s with events := s.events ++ es }

@[simp] theorem addEvents_x (es : List Event) (s : State) : (addEvents es s).x = s.x := rfl
@[simp] theorem addEvents_pc (es : List Event) (s : State) : (addEvents es s).pc = s.pc := rfl
@[simp] theorem addEvents_mem (es : List Event) (s : State) : (addEvents es s).mem = s.mem := rfl
@[simp] theorem addEvents_halted (es : List Event) (s : State) : (addEvents es s).halted = s.halted := rfl
@[simp] theorem addEvents_insnCount (es : List Event) (s : State) : (addEvents es s).insnCount = s.insnCount := rfl
@[simp] theorem addEvents_cfg (es : List Event) (s : State) : (addEvents es s).cfg = s.cfg := rfl
@[simp] theorem addEvents_outcome (es : List Event) (s : State) : (addEvents es s).outcome = s.outcome := rfl
@[simp] theorem addEvents_events (es : List Event) (s : State) : (addEvents es s).events = s.events ++ es := rfl
@[simp] theorem getReg_addEvents (r : Reg) (es : List Event) (s : State) : getReg r (addEvents es s) = getReg r s := rfl

theorem addEvents_nil (s : State) : addEvents [] s = s := by simp [addEvents]
theorem addEvents_addEvents (es fs : List Event) (s : State) :
    addEvents fs (addEvents es s) = addEvents (es ++ fs) s := by simp [addEvents]
@[simp] theorem inRange_addEvents (a : Word) (es : List Event) (s : State) :
    inRange a (addEvents es s) = inRange a s := rfl
@[simp] theorem peek8_addEvents (a : Word) (es : List Event) (s : State) :
    peek8 a (addEvents es s) = peek8 a s := rfl

/-- The warning of the byte access at a: none when a is in range. -/
def byteEvents (a : Word) (s : State) : List Event := if inRange a s then [] else [.outOfRange a]

@[simp] theorem byteEvents_addEvents (a : Word) (es : List Event) (s : State) :
    byteEvents a (addEvents es s) = byteEvents a s := rfl

/-! ## Reads: the value, and only warnings are added to the state -/

theorem read8_spec (a : Word) (s : State) : read8 a s = (peek8 a s, addEvents (byteEvents a s) s) := by
  unfold read8 peek8 byteEvents
  split
  · simp [addEvents]
  · rfl

theorem read16_spec (a : Word) (s : State) :
    read16 a s = (peek8 (a + 1#32) s ++ peek8 a s, addEvents (byteEvents a s ++ byteEvents (a + 1#32) s) s) := by
  simp [read16, read8_spec, addEvents_addEvents]

theorem add_two_one (a : Word) : a + 2#32 + 1#32 = a + 3#32 := by rw [BitVec.add_assoc]; rfl

theorem accessEvents_byte (a : Word) (s : State) : accessEvents .byte a s = byteEvents a s := by
  have h0 : a + BitVec.ofNat 32 0 = a := by simp
  unfold accessEvents byteEvents
  simp only [Width.bytes, show List.range 1 = [0] from rfl]
  by_cases h : inRange a s <;> simp [h]

theorem accessEvents_half (a : Word) (s : State) :
    accessEvents .half a s = byteEvents a s ++ byteEvents (a + 1#32) s := by
  unfold accessEvents byteEvents
  simp only [Width.bytes, show List.range 2 = [0, 1] from rfl]
  by_cases h : inRange a s <;> by_cases h1 : inRange (a + 1#32) s <;> simp [h, h1]

theorem accessEvents_word (a : Word) (s : State) :
    accessEvents .word a s =
      byteEvents a s ++ byteEvents (a + 1#32) s ++ byteEvents (a + 2#32) s ++ byteEvents (a + 3#32) s := by
  unfold accessEvents byteEvents
  simp only [Width.bytes, show List.range 4 = [0, 1, 2, 3] from rfl]
  by_cases h : inRange a s <;> by_cases h1 : inRange (a + 1#32) s <;> by_cases h2 : inRange (a + 2#32) s <;>
    by_cases h3 : inRange (a + 3#32) s <;> simp [h, h1, h2, h3]

theorem read32_spec (a : Word) (s : State) :
    read32 a s = (peek32 a s, addEvents (accessEvents .word a s) s) := by
  simp only [read32, read16_spec, addEvents_addEvents, peek8_addEvents, byteEvents_addEvents, accessEvents_word,
    add_two_one, List.append_assoc, peek32, wordOfBytes]
  congr 1
  apply BitVec.eq_of_getLsbD_eq
  intro i hi
  simp only [BitVec.getLsbD_append]
  grind

/-- Byte k of the word at a is the byte at a + k. -/
theorem byteOfWord_peek32 (a : Word) (s : State) {k : Nat} (hk : k < 4) :
    byteOfWord (peek32 a s) k = peek8 (a + BitVec.ofNat 32 k) s := by
  apply BitVec.eq_of_getLsbD_eq
  intro i hi
  simp only [byteOfWord, peek32, wordOfBytes, BitVec.getLsbD_extractLsb', BitVec.getLsbD_append]
  obtain rfl | rfl | rfl | rfl : k = 0 ∨ k = 1 ∨ k = 2 ∨ k = 3 := by omega
  all_goals simp; try grind

/-- MemRead gives the low n bytes of the word at the address, and adds only its warnings. -/
theorem memRead_spec (n : Width) (a : Word) (s : State) :
    memRead n a s = (zext (8 * n.bytes) (peek32 a s), addEvents (accessEvents n a s) s) := by
  cases n with
  | byte =>
    simp only [memRead, read8_spec, accessEvents_byte, Width.bytes, zext, peek32, wordOfBytes]
    congr 1
    apply BitVec.eq_of_getLsbD_eq
    intro i hi
    simp only [BitVec.getLsbD_setWidth, BitVec.getLsbD_append]
    grind
  | half =>
    simp only [memRead, read16_spec, accessEvents_half, Width.bytes, zext, peek32, wordOfBytes]
    congr 1
    apply BitVec.eq_of_getLsbD_eq
    intro i hi
    simp only [BitVec.getLsbD_setWidth, BitVec.getLsbD_append]
    grind
  | word => simp [memRead, read32_spec, Width.bytes, zext]

/-! ## Writes: the fields -/

theorem write8_spec (a : Word) (v : Byte) (s : State) :
    write8 a v s =
      { s with mem := if inRange a s then writeCell a.toNat v s.mem else s.mem,
               events := s.events ++ byteEvents a s } := by
  unfold write8 byteEvents
  split
  · simp
  · rfl

@[simp] theorem write8_x (a : Word) (v : Byte) (s : State) : (write8 a v s).x = s.x := by simp [write8_spec]
@[simp] theorem write8_pc (a : Word) (v : Byte) (s : State) : (write8 a v s).pc = s.pc := by simp [write8_spec]
@[simp] theorem write8_halted (a : Word) (v : Byte) (s : State) : (write8 a v s).halted = s.halted := by simp [write8_spec]
@[simp] theorem write8_insnCount (a : Word) (v : Byte) (s : State) : (write8 a v s).insnCount = s.insnCount := by simp [write8_spec]
@[simp] theorem write8_cfg (a : Word) (v : Byte) (s : State) : (write8 a v s).cfg = s.cfg := by simp [write8_spec]
@[simp] theorem write8_outcome (a : Word) (v : Byte) (s : State) : (write8 a v s).outcome = s.outcome := by simp [write8_spec]

@[simp] theorem write16_x (a : Word) (v : Half) (s : State) : (write16 a v s).x = s.x := by simp [write16]
@[simp] theorem write16_pc (a : Word) (v : Half) (s : State) : (write16 a v s).pc = s.pc := by simp [write16]
@[simp] theorem write16_halted (a : Word) (v : Half) (s : State) : (write16 a v s).halted = s.halted := by simp [write16]
@[simp] theorem write16_insnCount (a : Word) (v : Half) (s : State) : (write16 a v s).insnCount = s.insnCount := by simp [write16]
@[simp] theorem write16_cfg (a : Word) (v : Half) (s : State) : (write16 a v s).cfg = s.cfg := by simp [write16]
@[simp] theorem write16_outcome (a : Word) (v : Half) (s : State) : (write16 a v s).outcome = s.outcome := by simp [write16]

@[simp] theorem write32_x (a : Word) (v : Word) (s : State) : (write32 a v s).x = s.x := by simp [write32]
@[simp] theorem write32_pc (a : Word) (v : Word) (s : State) : (write32 a v s).pc = s.pc := by simp [write32]
@[simp] theorem write32_halted (a : Word) (v : Word) (s : State) : (write32 a v s).halted = s.halted := by simp [write32]
@[simp] theorem write32_insnCount (a : Word) (v : Word) (s : State) : (write32 a v s).insnCount = s.insnCount := by simp [write32]
@[simp] theorem write32_cfg (a : Word) (v : Word) (s : State) : (write32 a v s).cfg = s.cfg := by simp [write32]
@[simp] theorem write32_outcome (a : Word) (v : Word) (s : State) : (write32 a v s).outcome = s.outcome := by simp [write32]

@[simp] theorem memWrite_x (n : Width) (a v : Word) (s : State) : (memWrite n a v s).x = s.x := by
  cases n <;> simp [memWrite]
@[simp] theorem memWrite_pc (n : Width) (a v : Word) (s : State) : (memWrite n a v s).pc = s.pc := by
  cases n <;> simp [memWrite]
@[simp] theorem memWrite_halted (n : Width) (a v : Word) (s : State) : (memWrite n a v s).halted = s.halted := by
  cases n <;> simp [memWrite]
@[simp] theorem memWrite_insnCount (n : Width) (a v : Word) (s : State) : (memWrite n a v s).insnCount = s.insnCount := by
  cases n <;> simp [memWrite]
@[simp] theorem memWrite_cfg (n : Width) (a v : Word) (s : State) : (memWrite n a v s).cfg = s.cfg := by
  cases n <;> simp [memWrite]
@[simp] theorem memWrite_outcome (n : Width) (a v : Word) (s : State) : (memWrite n a v s).outcome = s.outcome := by
  cases n <;> simp [memWrite]

@[simp] theorem getReg_memWrite (r : Reg) (n : Width) (a v : Word) (s : State) :
    getReg r (memWrite n a v s) = getReg r s := getReg_congr (by simp) r

@[simp] theorem inRange_write8 (b a : Word) (v : Byte) (s : State) : inRange b (write8 a v s) = inRange b s :=
  inRange_congr (by simp) b

theorem byteEvents_congr {s t : State} (h : t.cfg = s.cfg) (a : Word) : byteEvents a t = byteEvents a s := by
  simp [byteEvents, inRange_congr h]

@[simp] theorem byteEvents_write8 (b a : Word) (v : Byte) (s : State) : byteEvents b (write8 a v s) = byteEvents b s :=
  byteEvents_congr (by simp) b

@[simp] theorem write8_events (a : Word) (v : Byte) (s : State) :
    (write8 a v s).events = s.events ++ byteEvents a s := by simp [write8_spec]

/-- A write adds its warnings, lowest offset first, and no others. -/
@[simp] theorem memWrite_events (n : Width) (a v : Word) (s : State) :
    (memWrite n a v s).events = s.events ++ accessEvents n a s := by
  cases n with
  | byte => simp [memWrite, accessEvents_byte]
  | half => simp [memWrite, write16, accessEvents_half]
  | word => simp [memWrite, write32, write16, accessEvents_word, add_two_one]

/-! ## Writes: the memory -/

theorem write8_wf (a : Word) (v : Byte) {s : State} (h : Memory.wf s.mem) : Memory.wf (write8 a v s).mem := by
  rw [write8_spec]
  show Memory.wf (if _ then _ else _)
  split
  · exact writeCell_wf _ _ h
  · exact h

theorem write8_within (a : Word) (v : Byte) {s : State} (h : Memory.within s.cfg.memSize s.mem) :
    Memory.within s.cfg.memSize (write8 a v s).mem := by
  rw [write8_spec]
  show Memory.within _ (if _ then _ else _)
  split
  · next hr => exact writeCell_within (by simpa [inRange] using hr) _ h
  · exact h

/-- The canonical form is kept by every write. -/
theorem memWrite_wf (n : Width) (a v : Word) {s : State} (h : Memory.wf s.mem) :
    Memory.wf (memWrite n a v s).mem := by
  cases n with
  | byte => exact write8_wf _ _ h
  | half => exact write8_wf _ _ (write8_wf _ _ h)
  | word => exact write8_wf _ _ (write8_wf _ _ (write8_wf _ _ (write8_wf _ _ h)))

/-- Only cells of the array are ever listed. -/
theorem memWrite_within (n : Width) (a v : Word) {s : State} (h : Memory.within s.cfg.memSize s.mem) :
    Memory.within s.cfg.memSize (memWrite n a v s).mem := by
  have step : ∀ (b : Word) (w : Byte) (t : State), t.cfg = s.cfg → Memory.within s.cfg.memSize t.mem →
      Memory.within s.cfg.memSize (write8 b w t).mem := by
    intro b w t hc ht
    have := write8_within b w (s := t) (by rw [hc]; exact ht)
    rwa [hc] at this
  cases n with
  | byte => exact step _ _ _ rfl h
  | half => exact step _ _ _ (by simp) (step _ _ _ rfl h)
  | word =>
    exact step _ _ _ (by simp) (step _ _ _ (by simp) (step _ _ _ (by simp) (step _ _ _ rfl h)))

/-- A byte write is read back at its address when it is in range, and every other byte reads as before. -/
theorem peek8_write8 (b a : Word) (v : Byte) {s : State} (h : Memory.wf s.mem) :
    peek8 b (write8 a v s) = if b = a ∧ inRange b s then v else peek8 b s := by
  unfold peek8
  rw [inRange_write8, write8_spec]
  by_cases hb : inRange b s
  · by_cases e : b = a
    · subst e; simp [hb, readCell_writeCell_same _ _ h]
    · have hn : a.toNat ≠ b.toNat := fun q => e (BitVec.eq_of_toNat_eq q.symm)
      by_cases ha : inRange a s <;> simp [hb, e, ha, readCell_writeCell_other hn]
  · simp [hb]

theorem eq_add_iff (a b k : Word) : b = a + k ↔ b - a = k := by
  constructor
  · rintro rfl; rw [BitVec.add_comm, BitVec.add_sub_cancel]
  · rintro rfl; rw [BitVec.add_comm, BitVec.sub_add_cancel]

theorem halfword_byte (v : Word) (i j : Nat) (hj : j + 8 ≤ 16) :
    (v.extractLsb' i 16).extractLsb' j 8 = v.extractLsb' (i + j) 8 := by
  apply BitVec.eq_of_getLsbD_eq
  intro k hk
  simp only [BitVec.getLsbD_extractLsb']
  grind

/-- After a write of n bytes at a, the byte at offset k < n of a, when it is in range, is byte k of the value, and
every other byte reads as before. -/
theorem peek8_memWrite (n : Width) (b a v : Word) {s : State} (h : Memory.wf s.mem) :
    peek8 b (memWrite n a v s) =
      if inRange b s ∧ (b - a).toNat < n.bytes then byteOfWord v (b - a).toNat else peek8 b s := by
  have ba : b = a ↔ b - a = 0#32 := by simpa using eq_add_iff a b 0#32
  have h0 := write8_wf a (v.extractLsb' 0 8) h
  cases n with
  | byte =>
    simp only [memWrite, Width.bytes, peek8_write8 _ _ _ h, ba]
    have : (b - a).toNat < 1 ↔ b - a = 0#32 := by
      rw [← BitVec.toNat_inj]; simp only [BitVec.toNat_ofNat]; omega
    simp only [this]
    by_cases e : b - a = 0#32 <;> simp [e, byteOfWord]
  | half =>
    have v0 := halfword_byte v 0 0 (by decide)
    have v1 := halfword_byte v 0 8 (by decide)
    simp only [memWrite, write16, Width.bytes, v0, v1, Nat.zero_add, peek8_write8 _ _ _ h0, peek8_write8 _ _ _ h, inRange_write8,
      ba, eq_add_iff a b]
    by_cases hr : inRange b s
    · have : (b - a).toNat < 2 ↔ b - a = 0#32 ∨ b - a = 1#32 := by
        simp only [← BitVec.toNat_inj, BitVec.toNat_ofNat]; omega
      simp only [this]
      by_cases e0 : b - a = 0#32
      · simp [e0, byteOfWord, hr]
      · by_cases e1 : b - a = 1#32 <;> simp [e0, e1, byteOfWord, hr]
    · simp [hr]
  | word =>
    have h1 := write8_wf (a + 1#32) (v.extractLsb' 8 8) h0
    have h2 := write8_wf (a + 2#32) (v.extractLsb' 16 8) h1
    have v0 := halfword_byte v 0 0 (by decide)
    have v1 := halfword_byte v 0 8 (by decide)
    have v2 := halfword_byte v 16 0 (by decide)
    have v3 := halfword_byte v 16 8 (by decide)
    simp only [memWrite, write32, write16, Width.bytes, v0, v1, v2, v3, Nat.zero_add, Nat.reduceAdd, add_two_one, peek8_write8 _ _ _ h2,
      peek8_write8 _ _ _ h1, peek8_write8 _ _ _ h0, peek8_write8 _ _ _ h, inRange_write8, ba, eq_add_iff a b]
    by_cases hr : inRange b s
    · have : (b - a).toNat < 4 ↔ b - a = 0#32 ∨ b - a = 1#32 ∨ b - a = 2#32 ∨ b - a = 3#32 := by
        simp only [← BitVec.toNat_inj, BitVec.toNat_ofNat]; omega
      simp only [this]
      by_cases e0 : b - a = 0#32
      · simp [e0, byteOfWord, hr]
      · by_cases e1 : b - a = 1#32
        · simp [e1, byteOfWord, hr]
        · by_cases e2 : b - a = 2#32
          · simp [e2, byteOfWord, hr]
          · by_cases e3 : b - a = 3#32 <;> simp [e0, e1, e2, e3, byteOfWord, hr]
    · simp [hr]

end Sys2Proof.Machine
end

