-- ==== Sys2Proof/Laws/Exec.lean ====
section
/-! SUPPORT. What the shared operations of the handlers do, and the inversion of `exec`: every instruction answers a
next state, in one of four shapes. -/

namespace Sys2Proof.Machine

/-- A load is the extension of the low n bytes of the word at the address, written to rd, with the access's warnings. -/
theorem loadWith_spec (n : Width) (extend : Word → Word) (rd rs1 : Reg) (imm : Word) (s : State) :
    loadWith n extend rd rs1 imm s =
      commitReg rd (extend (zext (8 * n.bytes) (peek32 (effAddr rs1 imm s) s))) (nextPc s)
        (addEvents (accessEvents n (effAddr rs1 imm s) s) s) := by
  simp [loadWith, memRead_spec]

/-- A store changes the memory at the address as memWrite does, and moves the pc. -/
theorem storeWith_spec (n : Width) (rs1 rs2 : Reg) (imm : Word) (s : State) :
    storeWith n rs1 rs2 imm s = commitPc (nextPc s) (memWrite n (effAddr rs1 imm s) (getReg rs2 s) s) := rfl

/-! ## Even targets (10_state.md R26) -/

theorem getLsbD_zero_add {a b : Word} (ha : a.getLsbD 0 = false) (hb : b.getLsbD 0 = false) :
    (a + b).getLsbD 0 = false := by
  rw [BitVec.getLsbD_add (by decide), ha, hb, BitVec.carry_zero]
  rfl

theorem nextPc_even {s : State} (h : s.pc.getLsbD 0 = false) : (nextPc s).getLsbD 0 = false :=
  getLsbD_zero_add h rfl

theorem pcRelative_even {s : State} {imm : Word} (h : s.pc.getLsbD 0 = false) (hi : imm.getLsbD 0 = false) :
    (pcRelative imm s).getLsbD 0 = false := getLsbD_zero_add h hi

theorem jalrTarget_even (rs1 : Reg) (imm : Word) (s : State) : (jalrTarget rs1 imm s).getLsbD 0 = false := by
  rw [jalrTarget, BitVec.getLsbD_and]
  exact Bool.and_false _

theorem fitsImmB_even {imm : Word} (h : fitsImmB imm = true) : imm.getLsbD 0 = false := by
  simp only [fitsImmB, Bool.and_eq_true, Bool.not_eq_true'] at h; exact h.2

theorem fitsImmJ_even {imm : Word} (h : fitsImmJ imm = true) : imm.getLsbD 0 = false := by
  simp only [fitsImmJ, Bool.and_eq_true, Bool.not_eq_true'] at h; exact h.2

/-! ## The four shapes -/

/-- The target of a handler is even when the pc is and the instruction is well-formed. -/
abbrev EvenTarget (i : Instr) (s : State) (target : Word) : Prop :=
  i.wellFormed = true → s.pc.getLsbD 0 = false → target.getLsbD 0 = false

/-- t is what the handler of i makes of s: a register written (with the warnings es of a load), a branch or FENCE,
a store, or a halt. -/
inductive Effect (i : Instr) (s : State) : State → Prop where
  | register (rd : Reg) (v target : Word) (es : List Event) (even : EvenTarget i s target) :
      Effect i s (commitReg rd v target (addEvents es s))
  | transfer (target : Word) (even : EvenTarget i s target) : Effect i s (commitPc target s)
  | store (n : Width) (a v : Word) : Effect i s (commitPc (nextPc s) (memWrite n a v s))
  | halt (c : HaltCause) : Effect i s (raiseHalt c s)

theorem Effect.alu (i : Instr) (s : State) (rd : Reg) (v : Word) : Effect i s (aluResult rd v s) := by
  have := Effect.register (i := i) (s := s) rd v (nextPc s) [] fun _ h => nextPc_even h
  rwa [addEvents_nil] at this

theorem Effect.load (i : Instr) (s : State) (n : Width) (f : Word → Word) (rd rs1 : Reg) (imm : Word) :
    Effect i s (loadWith n f rd rs1 imm s) := by
  rw [loadWith_spec]
  exact .register _ _ _ _ fun _ h => nextPc_even h

theorem Effect.branch {i : Instr} (s : State) (taken : Bool) {imm : Word}
    (h : i.wellFormed = true → fitsImmB imm = true) : Effect i s (branchIf taken imm s) := by
  refine .transfer _ fun hw hp => ?_
  cases taken
  · exact nextPc_even hp
  · exact pcRelative_even hp (fitsImmB_even (h hw))

/-- Every instruction answers a next state, in one of the four shapes. -/
theorem exec_effect (i : Instr) (s : State) : ∃ t, exec i s = .next t ∧ Effect i s t := by
  have reg : ∀ (j : Instr) (rd : Reg) (v target : Word), EvenTarget j s target →
      Effect j s (commitReg rd v target s) := by
    intro j rd v target he
    have := Effect.register (i := j) (s := s) rd v target [] he
    rwa [addEvents_nil] at this
  cases i
  case lui => exact ⟨_, rfl, reg _ _ _ _ fun _ h => nextPc_even h⟩
  case auipc => exact ⟨_, rfl, reg _ _ _ _ fun _ h => nextPc_even h⟩
  case jal => exact ⟨_, rfl, reg _ _ _ _ fun hw h => pcRelative_even h (fitsImmJ_even hw)⟩
  case jalr => exact ⟨_, rfl, reg _ _ _ _ fun _ _ => jalrTarget_even _ _ _⟩
  case beq | bne | blt | bge | bltu | bgeu => exact ⟨_, rfl, .branch s _ id⟩
  case lb | lh | lw | lbu | lhu => exact ⟨_, rfl, .load _ _ _ _ _ _ _⟩
  case sb | sh | sw => exact ⟨_, rfl, .store _ _ _⟩
  case fence => exact ⟨_, rfl, .transfer _ fun _ h => nextPc_even h⟩
  case ecall | ebreak | csrrw | csrrs | csrrc | csrrwi | csrrsi | csrrci => exact ⟨_, rfl, .halt _⟩
  all_goals exact ⟨_, rfl, .alu _ _ _ _⟩

end Sys2Proof.Machine
end

