-- ==== Sys2Proof/Laws/Step.lean ====
section
/-! SUPPORT. The inversion of `step`, and the inductions over steps, packaged once. -/

namespace Sys2Proof.Machine

/-- The state in which the fetched instruction runs: counted, with the warnings of the fetch. -/
def fetched (s : State) : State := addEvents (accessEvents .word s.pc s) (beginStep s)

@[simp] theorem fetched_x (s : State) : (fetched s).x = s.x := rfl
@[simp] theorem fetched_pc (s : State) : (fetched s).pc = s.pc := rfl
@[simp] theorem fetched_mem (s : State) : (fetched s).mem = s.mem := rfl
@[simp] theorem fetched_halted (s : State) : (fetched s).halted = s.halted := rfl
@[simp] theorem fetched_insnCount (s : State) : (fetched s).insnCount = s.insnCount + 1 := rfl
@[simp] theorem fetched_cfg (s : State) : (fetched s).cfg = s.cfg := rfl
@[simp] theorem fetched_events (s : State) : (fetched s).events = accessEvents .word s.pc s := rfl
@[simp] theorem getReg_fetched (r : Reg) (s : State) : getReg r (fetched s) = getReg r s := rfl

/-- The fetch gives the word at the pc, and adds only its warnings. -/
theorem fetch_spec (s : State) : fetch (beginStep s) = (peek32 s.pc s, fetched s) := by
  rw [fetch, read32_spec]
  rfl

theorem step_of_halted {s : State} (h : s.halted = true) : step s = .next (idle s) := by
  simp [step, cycle, h]

theorem step_of_running {s : State} (h : s.halted = false) : step s = runWord (peek32 s.pc s) (fetched s) := by
  simp [step, cycle, h, fetch_spec]

/-- What a step can do: nothing, when halted; a halt, when the fetched word is no instruction; else the one handler. -/
theorem step_cases {s t : State} (h : step s = .next t) :
    (s.halted = true ∧ t = idle s) ∨
    (s.halted = false ∧ ∃ e, decode s.cfg.strictDecode (peek32 s.pc s) = .error e ∧
      t = raiseHalt .illegalInstruction (fetched s)) ∨
    (s.halted = false ∧ ∃ i, decode s.cfg.strictDecode (peek32 s.pc s) = .ok i ∧ Effect i (fetched s) t ∧
      exec i (fetched s) = .next t) := by
  cases hs : s.halted with
  | true =>
    rw [step_of_halted hs] at h
    cases h
    exact .inl ⟨rfl, rfl⟩
  | false =>
    rw [step_of_running hs, runWord, fetched_cfg] at h
    cases hd : decode s.cfg.strictDecode (peek32 s.pc s) with
    | error e =>
      rw [hd] at h
      cases h
      exact .inr (.inl ⟨rfl, e, rfl, rfl⟩)
    | ok i =>
      rw [hd] at h
      obtain ⟨u, hu, he⟩ := exec_effect i (fetched s)
      have hut : u = t := by
        have := hu.symm.trans h
        cases this
        rfl
      subst hut
      exact .inr (.inr ⟨rfl, i, rfl, he, hu⟩)

/-- For any machine: what is kept by every step holds after any number of steps. -/
theorem core_run_invariant (M : Host.Core) {P : M.State → Prop} (keep : ∀ s t, P s → M.step s = .next t → P t)
    (k : Nat) : ∀ s t, P s → M.run k s = .next t → P t := by
  induction k with
  | zero => intro s t hs h; cases h; exact hs
  | succ k ih =>
    intro s t hs h
    unfold Host.Core.run at h
    cases hu : M.step s with
    | next u => rw [hu] at h; exact ih u t (keep s u hs hu) h
    | fault r => rw [hu] at h; cases h
    | refused r => rw [hu] at h; cases h

/-- What holds at a state and is kept by every step holds after any number of steps. -/
theorem run_invariant {P : State → Prop} (keep : ∀ s t, P s → step s = .next t → P t) (k : Nat) (s t : State)
    (hs : P s) (h : Host.Core.run core k s = .next t) : P t :=
  core_run_invariant core (P := P) keep k s t hs h

/-- What holds at the start of a run loop and is kept by every step holds of the state the run ends in. -/
theorem runLoop_invariant {P : State → Prop} (keep : ∀ s t, P s → step s = .next t → P t) (fuel : Nat) :
    ∀ s es t fs, P s → runLoop fuel s es = .ended t fs → P t := by
  induction fuel with
  | zero =>
    intro s es t fs hs h
    unfold runLoop at h
    split at h
    · cases h; exact hs
    · cases h
  | succ k ih =>
    intro s es t fs hs h
    unfold runLoop at h
    split at h
    · cases h; exact hs
    · cases hu : step s with
      | next u => rw [hu] at h; exact ih u _ t fs (keep s u hs hu) h
      | fault r => cases r
      | refused r => rw [hu] at h; cases h

/-! ## The canonical form at reset and where an instruction is placed -/

theorem reset_mem_wf : Memory.wf State.reset.mem := ⟨.nil, fun c h => by simp [State.reset] at h⟩

theorem placeWord_mem_wf (w : Word) {s : State} (h : Memory.wf s.mem) : Memory.wf (placeWord w s).mem :=
  memWrite_wf .word s.pc w h

/-- Placing an instruction changes the memory and the running flag alone. -/
theorem placeWord_spec (w : Word) (s : State) :
    placeWord w s = { s with mem := (write32 s.pc w s).mem, halted := false } := by
  simp [placeWord]

end Sys2Proof.Machine
end

