-- ==== Sys2Proof/Certificates/Slice0/Obligations.lean ====
section
/-! DEFINITION. The statements about the core. Every statement about an instruction says what the row's words decode
to and what `exec` makes of the instruction at every state, for every operand, register 0 included. The numeric
encodings are the spec's supply from general knowledge (log entry 17). -/

namespace Sys2Proof.Machine

/-! ## The words the statements are written in -/

/-- Under this STRICT_DECODE, every word w with `w & mask = value` decodes to the instruction mk reads from it. -/
def RowDecodesUnder (strict : Bool) (mask value : Word) (mk : Word → Instr) : Prop :=
  ∀ w : Word, w &&& mask = value → decode strict w = .ok (mk w)

/-- The same under both settings of STRICT_DECODE. -/
def RowDecodes (mask value : Word) (mk : Word → Instr) : Prop := ∀ strict, RowDecodesUnder strict mask value mk

/-- What no instruction changes unless it halts: the running flag, the counter (the step counted it before) and the
parameters. -/
structure SameControl (s t : State) : Prop where
  halted : t.halted = s.halted
  count : t.insnCount = s.insnCount
  params : t.cfg = s.cfg

/-- t is s with v in rd (discarded when rd is 0) and the pc at target, the instruction retired; every other register
and all of memory are unchanged. -/
structure WritesRegister (s t : State) (rd : Reg) (v target : Word) : Prop where
  retired : t.outcome = some .retired
  dest : rd ≠ 0#5 → getReg rd t = v
  zero : getReg 0#5 t = 0#32
  others : ∀ r, r ≠ rd → getReg r t = getReg r s
  pc : t.pc = target
  cells : t.mem = s.mem
  bytes : ∀ a, peek8 a t = peek8 a s
  control : SameControl s t

/-- t is s with the pc at target, the instruction retired; every register and all of memory are unchanged. -/
structure MovesPc (s t : State) (target : Word) : Prop where
  retired : t.outcome = some .retired
  registers : ∀ r, getReg r t = getReg r s
  pc : t.pc = target
  cells : t.mem = s.mem
  bytes : ∀ a, peek8 a t = peek8 a s
  events : t.events = s.events
  control : SameControl s t

/-- t is s with the low n bytes of v stored at a (each byte that is in range), the pc at target, the instruction
retired; every register and every byte outside the n bytes at a are unchanged. -/
structure StoresBytes (s t : State) (n : Nat) (a v target : Word) : Prop where
  retired : t.outcome = some .retired
  registers : ∀ r, getReg r t = getReg r s
  pc : t.pc = target
  stored : Memory.wf s.mem → ∀ k, k < n → inRange (a + BitVec.ofNat 32 k) s →
    peek8 (a + BitVec.ofNat 32 k) t = v.extractLsb' (8 * k) 8
  dropped : ∀ k, k < n → ¬ inRange (a + BitVec.ofNat 32 k) s → peek8 (a + BitVec.ofNat 32 k) t = 0x00#8
  outside : ∀ b, (∀ k, k < n → b ≠ a + BitVec.ofNat 32 k) → peek8 b t = peek8 b s
  control : SameControl s t

/-- t is s halted with the cause: pc, registers, memory, counter, parameters and warnings are those of s. -/
structure HaltsWith (s t : State) (cause : HaltCause) : Prop where
  halted : t.halted = true
  outcome : t.outcome = some (.halted cause)
  pc : t.pc = s.pc
  file : t.x = s.x
  registers : ∀ r, getReg r t = getReg r s
  cells : t.mem = s.mem
  bytes : ∀ a, peek8 a t = peek8 a s
  count : t.insnCount = s.insnCount
  params : t.cfg = s.cfg
  events : t.events = s.events

/-- exec answers a next state in which v is in rd and the pc is at target, with no warning added. -/
def ComputesInto (i : Instr) (s : State) (rd : Reg) (v target : Word) : Prop :=
  ∃ t, exec i s = .next t ∧ WritesRegister s t rd v target ∧ t.events = s.events

/-- exec answers a next state in which v is in rd and the pc is at target (a load). -/
def LoadsInto (i : Instr) (s : State) (rd : Reg) (v target : Word) : Prop :=
  ∃ t, exec i s = .next t ∧ WritesRegister s t rd v target

/-- exec answers a next state in which only the pc has moved, to target. -/
def JumpsTo (i : Instr) (s : State) (target : Word) : Prop := ∃ t, exec i s = .next t ∧ MovesPc s t target

/-- exec answers a next state in which the n low bytes of v have been stored at a and the pc is at target. -/
def StoresTo (i : Instr) (s : State) (n : Nat) (a v target : Word) : Prop :=
  ∃ t, exec i s = .next t ∧ StoresBytes s t n a v target

/-- exec answers the halt with the cause. -/
def HaltsAs (i : Instr) (s : State) (cause : HaltCause) : Prop := ∃ t, exec i s = .next t ∧ HaltsWith s t cause

/-- The words of 30_encoding.md R113, item by item. -/
def IllegalWord (strict : Bool) (w : Word) : Prop :=
  (opcode w ∉ [0x37#7, 0x17#7, 0x6F#7, 0x67#7, 0x63#7, 0x03#7, 0x23#7, 0x13#7, 0x33#7, 0x0F#7, 0x73#7]) ∨
  (opcode w = 0x63#7 ∧ funct3 w ∈ [0b010#3, 0b011#3]) ∨
  (opcode w = 0x03#7 ∧ funct3 w ∈ [0b011#3, 0b110#3, 0b111#3]) ∨
  (opcode w = 0x23#7 ∧ funct3 w ∈ [0b011#3, 0b100#3, 0b101#3, 0b110#3, 0b111#3]) ∨
  (opcode w = 0x13#7 ∧ funct3 w = 0b101#3 ∧ funct7 w ∉ [0b0000000#7, 0b0100000#7]) ∨
  (opcode w = 0x33#7 ∧ funct3 w ∈ [0b000#3, 0b101#3] ∧ funct7 w ∉ [0b0000000#7, 0b0100000#7]) ∨
  (opcode w = 0x73#7 ∧ w ∉ [0x00000073#32, 0x00100073#32]) ∨
  (strict = true ∧
    ((opcode w ∈ [0x67#7, 0x0F#7] ∧ funct3 w ≠ 0b000#3) ∨
     (opcode w = 0x13#7 ∧ funct3 w = 0b001#3 ∧ funct7 w ≠ 0#7) ∨
     (opcode w = 0x33#7 ∧ funct3 w ∈ [0b001#3, 0b010#3, 0b011#3, 0b100#3, 0b110#3, 0b111#3] ∧ funct7 w ≠ 0#7)))

/-- The six CSR forms. -/
def csrForm : Instr → Bool
  | .csrrw _ _ _ | .csrrs _ _ _ | .csrrc _ _ _ | .csrrwi _ _ _ | .csrrsi _ _ _ | .csrrci _ _ _ => true
  | _ => false

end Sys2Proof.Machine

open Sys2Proof Sys2Proof.Machine

/-- R150: LUI writes the immediate, for every operand (rd = 0 discards it). -/
def Obligations.LuiWritesUpperImmediate : Prop :=
  RowDecodes 0x0000007F#32 0x00000037#32 (fun w => .lui (w.extractLsb' 7 5) (w &&& 0xFFFFF000#32)) ∧
  ∀ rd imm s, ComputesInto (.lui rd imm) s rd imm (s.pc + 4#32)

/-- R151: AUIPC adds the immediate to its own address, modulo 2^32. -/
def Obligations.AuipcAddsPcAndImmediate : Prop :=
  RowDecodes 0x0000007F#32 0x00000017#32 (fun w => .auipc (w.extractLsb' 7 5) (w &&& 0xFFFFF000#32)) ∧
  ∀ rd imm s, ComputesInto (.auipc rd imm) s rd (BitVec.ofNat 32 (s.pc.toNat + imm.toNat)) (s.pc + 4#32)

/-- R155. That a target with bit 1 set raises nothing is the spec's own decision D12 (log entry 9). -/
def Obligations.JalLinksAndJumps : Prop :=
  RowDecodes 0x0000007F#32 0x0000006F#32 (fun w => .jal (w.extractLsb' 7 5) (immJ w)) ∧
  ∀ rd imm s, ComputesInto (.jal rd imm) s rd (s.pc + 4#32) (BitVec.ofInt 32 (s.pc.toNat + imm.toInt))

/-- R156. The cleared bit 0 and the order are decision D13 (log entry 10), the unexamined funct3 decision D7 (log entry 6), the unaligned target D12 (log entry 9). -/
def Obligations.JalrLinksAndJumps : Prop :=
  RowDecodesUnder false 0x0000007F#32 0x00000067#32 (fun w => .jalr (w.extractLsb' 7 5) (w.extractLsb' 15 5) (immI w)) ∧
  RowDecodesUnder true 0x0000707F#32 0x00000067#32 (fun w => .jalr (w.extractLsb' 7 5) (w.extractLsb' 15 5) (immI w)) ∧
  ∀ rd rs1 imm s, ∃ target : Word, ComputesInto (.jalr rd rs1 imm) s rd (s.pc + 4#32) target ∧
    target.getLsbD 0 = false ∧
    ∀ k, 0 < k → k < 32 → target.getLsbD k = (BitVec.ofInt 32 ((getReg rs1 s).toNat + imm.toInt)).getLsbD k

/-- R161, R162. -/
def Obligations.BeqBneBranchOnEquality : Prop :=
  RowDecodes 0x0000707F#32 0x00000063#32 (fun w => .beq (w.extractLsb' 15 5) (w.extractLsb' 20 5) (immB w)) ∧
  RowDecodes 0x0000707F#32 0x00001063#32 (fun w => .bne (w.extractLsb' 15 5) (w.extractLsb' 20 5) (immB w)) ∧
  ∀ rs1 rs2 imm s,
    JumpsTo (.beq rs1 rs2 imm) s (if getReg rs1 s = getReg rs2 s then BitVec.ofInt 32 (s.pc.toNat + imm.toInt) else s.pc + 4#32) ∧
    JumpsTo (.bne rs1 rs2 imm) s (if getReg rs1 s ≠ getReg rs2 s then BitVec.ofInt 32 (s.pc.toNat + imm.toInt) else s.pc + 4#32)

/-- R163, R164. -/
def Obligations.BltBgeBranchOnSignedOrder : Prop :=
  RowDecodes 0x0000707F#32 0x00004063#32 (fun w => .blt (w.extractLsb' 15 5) (w.extractLsb' 20 5) (immB w)) ∧
  RowDecodes 0x0000707F#32 0x00005063#32 (fun w => .bge (w.extractLsb' 15 5) (w.extractLsb' 20 5) (immB w)) ∧
  ∀ rs1 rs2 imm s,
    JumpsTo (.blt rs1 rs2 imm) s (if (getReg rs1 s).toInt < (getReg rs2 s).toInt then BitVec.ofInt 32 (s.pc.toNat + imm.toInt) else s.pc + 4#32) ∧
    JumpsTo (.bge rs1 rs2 imm) s (if (getReg rs1 s).toInt ≥ (getReg rs2 s).toInt then BitVec.ofInt 32 (s.pc.toNat + imm.toInt) else s.pc + 4#32)

/-- R165, R166. -/
def Obligations.BltuBgeuBranchOnUnsignedOrder : Prop :=
  RowDecodes 0x0000707F#32 0x00006063#32 (fun w => .bltu (w.extractLsb' 15 5) (w.extractLsb' 20 5) (immB w)) ∧
  RowDecodes 0x0000707F#32 0x00007063#32 (fun w => .bgeu (w.extractLsb' 15 5) (w.extractLsb' 20 5) (immB w)) ∧
  ∀ rs1 rs2 imm s,
    JumpsTo (.bltu rs1 rs2 imm) s (if (getReg rs1 s).toNat < (getReg rs2 s).toNat then BitVec.ofInt 32 (s.pc.toNat + imm.toInt) else s.pc + 4#32) ∧
    JumpsTo (.bgeu rs1 rs2 imm) s (if (getReg rs1 s).toNat ≥ (getReg rs2 s).toNat then BitVec.ofInt 32 (s.pc.toNat + imm.toInt) else s.pc + 4#32)

/-- R171, R174. `peek8` is the byte a read gives: the stored byte in range, 0x00 out of range (R64). -/
def Obligations.ByteLoadsExtendOneByte : Prop :=
  RowDecodes 0x0000707F#32 0x00000003#32 (fun w => .lb (w.extractLsb' 7 5) (w.extractLsb' 15 5) (immI w)) ∧
  RowDecodes 0x0000707F#32 0x00004003#32 (fun w => .lbu (w.extractLsb' 7 5) (w.extractLsb' 15 5) (immI w)) ∧
  ∀ rd rs1 imm s,
    LoadsInto (.lb rd rs1 imm) s rd ((peek8 (getReg rs1 s + imm) s).signExtend 32) (s.pc + 4#32) ∧
    LoadsInto (.lbu rd rs1 imm) s rd ((peek8 (getReg rs1 s + imm) s).setWidth 32) (s.pc + 4#32)

/-- R172, R175. Addresses inside the access wrap modulo 2^32 (R74, decision D3, log entry 4). -/
def Obligations.HalfLoadsExtendTwoBytes : Prop :=
  RowDecodes 0x0000707F#32 0x00001003#32 (fun w => .lh (w.extractLsb' 7 5) (w.extractLsb' 15 5) (immI w)) ∧
  RowDecodes 0x0000707F#32 0x00005003#32 (fun w => .lhu (w.extractLsb' 7 5) (w.extractLsb' 15 5) (immI w)) ∧
  ∀ rd rs1 imm s,
    LoadsInto (.lh rd rs1 imm) s rd ((peek8 (getReg rs1 s + imm + 1#32) s ++ peek8 (getReg rs1 s + imm) s).signExtend 32) (s.pc + 4#32) ∧
    LoadsInto (.lhu rd rs1 imm) s rd ((peek8 (getReg rs1 s + imm + 1#32) s ++ peek8 (getReg rs1 s + imm) s).setWidth 32) (s.pc + 4#32)

/-- R173. Addresses inside the access wrap modulo 2^32 (R74, decision D3, log entry 4). -/
def Obligations.WordLoadReadsFourBytes : Prop :=
  RowDecodes 0x0000707F#32 0x00002003#32 (fun w => .lw (w.extractLsb' 7 5) (w.extractLsb' 15 5) (immI w)) ∧
  ∀ rd rs1 imm s,
    LoadsInto (.lw rd rs1 imm) s rd (peek8 (getReg rs1 s + imm + 3#32) s ++ peek8 (getReg rs1 s + imm + 2#32) s ++ peek8 (getReg rs1 s + imm + 1#32) s ++ peek8 (getReg rs1 s + imm) s) (s.pc + 4#32)

/-- R181. -/
def Obligations.StoreByteWritesOneByte : Prop :=
  RowDecodes 0x0000707F#32 0x00000023#32 (fun w => .sb (w.extractLsb' 15 5) (w.extractLsb' 20 5) (immS w)) ∧
  ∀ rs1 rs2 imm s, StoresTo (.sb rs1 rs2 imm) s 1 (effAddr rs1 imm s) (getReg rs2 s) (s.pc + 4#32)

/-- R182. Addresses inside the access wrap modulo 2^32 (R74, decision D3, log entry 4). -/
def Obligations.StoreHalfWritesTwoBytes : Prop :=
  RowDecodes 0x0000707F#32 0x00001023#32 (fun w => .sh (w.extractLsb' 15 5) (w.extractLsb' 20 5) (immS w)) ∧
  ∀ rs1 rs2 imm s, StoresTo (.sh rs1 rs2 imm) s 2 (effAddr rs1 imm s) (getReg rs2 s) (s.pc + 4#32)

/-- R183. Addresses inside the access wrap modulo 2^32 (R74, decision D3, log entry 4). -/
def Obligations.StoreWordWritesFourBytes : Prop :=
  RowDecodes 0x0000707F#32 0x00002023#32 (fun w => .sw (w.extractLsb' 15 5) (w.extractLsb' 20 5) (immS w)) ∧
  ∀ rs1 rs2 imm s, StoresTo (.sw rs1 rs2 imm) s 4 (effAddr rs1 imm s) (getReg rs2 s) (s.pc + 4#32)

/-- R191. -/
def Obligations.AddiAddsImmediate : Prop :=
  RowDecodes 0x0000707F#32 0x00000013#32 (fun w => .addi (w.extractLsb' 7 5) (w.extractLsb' 15 5) (immI w)) ∧
  ∀ rd rs1 imm s, ComputesInto (.addi rd rs1 imm) s rd (BitVec.ofInt 32 ((getReg rs1 s).toInt + imm.toInt)) (s.pc + 4#32)

/-- R192, R193. -/
def Obligations.SltiSltiuCompareWithImmediate : Prop :=
  RowDecodes 0x0000707F#32 0x00002013#32 (fun w => .slti (w.extractLsb' 7 5) (w.extractLsb' 15 5) (immI w)) ∧
  RowDecodes 0x0000707F#32 0x00003013#32 (fun w => .sltiu (w.extractLsb' 7 5) (w.extractLsb' 15 5) (immI w)) ∧
  ∀ rd rs1 imm s,
    ComputesInto (.slti rd rs1 imm) s rd (if (getReg rs1 s).toInt < imm.toInt then 1#32 else 0#32) (s.pc + 4#32) ∧
    ComputesInto (.sltiu rd rs1 imm) s rd (if (getReg rs1 s).toNat < imm.toNat then 1#32 else 0#32) (s.pc + 4#32)

/-- R194, R195, R196. -/
def Obligations.XoriOriAndiAreBitwise : Prop :=
  RowDecodes 0x0000707F#32 0x00004013#32 (fun w => .xori (w.extractLsb' 7 5) (w.extractLsb' 15 5) (immI w)) ∧
  RowDecodes 0x0000707F#32 0x00006013#32 (fun w => .ori (w.extractLsb' 7 5) (w.extractLsb' 15 5) (immI w)) ∧
  RowDecodes 0x0000707F#32 0x00007013#32 (fun w => .andi (w.extractLsb' 7 5) (w.extractLsb' 15 5) (immI w)) ∧
  ∀ rd rs1 imm s, ∃ vx vo va : Word,
    ComputesInto (.xori rd rs1 imm) s rd vx (s.pc + 4#32) ∧
    ComputesInto (.ori rd rs1 imm) s rd vo (s.pc + 4#32) ∧
    ComputesInto (.andi rd rs1 imm) s rd va (s.pc + 4#32) ∧
    ∀ k, k < 32 →
      vx.getLsbD k = ((getReg rs1 s).getLsbD k != imm.getLsbD k) ∧
      vo.getLsbD k = ((getReg rs1 s).getLsbD k || imm.getLsbD k) ∧
      va.getLsbD k = ((getReg rs1 s).getLsbD k && imm.getLsbD k)

/-- R198. That funct7 is not examined unless STRICT_DECODE is decision D7 (log entry 6). -/
def Obligations.SlliShiftsLeft : Prop :=
  RowDecodesUnder false 0x0000707F#32 0x00001013#32 (fun w => .slli (w.extractLsb' 7 5) (w.extractLsb' 15 5) (w.extractLsb' 20 5)) ∧
  RowDecodesUnder true 0xFE00707F#32 0x00001013#32 (fun w => .slli (w.extractLsb' 7 5) (w.extractLsb' 15 5) (w.extractLsb' 20 5)) ∧
  ∀ rd rs1 shamt s,
    ComputesInto (.slli rd rs1 shamt) s rd (BitVec.ofNat 32 ((getReg rs1 s).toNat * 2 ^ shamt.toNat)) (s.pc + 4#32)

/-- R199, R200. -/
def Obligations.SrliSraiShiftRight : Prop :=
  RowDecodes 0xFE00707F#32 0x00005013#32 (fun w => .srli (w.extractLsb' 7 5) (w.extractLsb' 15 5) (w.extractLsb' 20 5)) ∧
  RowDecodes 0xFE00707F#32 0x40005013#32 (fun w => .srai (w.extractLsb' 7 5) (w.extractLsb' 15 5) (w.extractLsb' 20 5)) ∧
  ∀ rd rs1 shamt s,
    ComputesInto (.srli rd rs1 shamt) s rd (BitVec.ofNat 32 ((getReg rs1 s).toNat / 2 ^ shamt.toNat)) (s.pc + 4#32) ∧
    ComputesInto (.srai rd rs1 shamt) s rd (BitVec.ofInt 32 ((getReg rs1 s).toInt / 2 ^ shamt.toNat)) (s.pc + 4#32)

/-- R206, R207. -/
def Obligations.AddSubWrap : Prop :=
  RowDecodes 0xFE00707F#32 0x00000033#32 (fun w => .add (w.extractLsb' 7 5) (w.extractLsb' 15 5) (w.extractLsb' 20 5)) ∧
  RowDecodes 0xFE00707F#32 0x40000033#32 (fun w => .sub (w.extractLsb' 7 5) (w.extractLsb' 15 5) (w.extractLsb' 20 5)) ∧
  ∀ rd rs1 rs2 s,
    ComputesInto (.add rd rs1 rs2) s rd (BitVec.ofInt 32 ((getReg rs1 s).toInt + (getReg rs2 s).toInt)) (s.pc + 4#32) ∧
    ComputesInto (.sub rd rs1 rs2) s rd (BitVec.ofInt 32 ((getReg rs1 s).toInt - (getReg rs2 s).toInt)) (s.pc + 4#32)

/-- R212, R213. -/
def Obligations.SrlSraUseFiveBitCounts : Prop :=
  RowDecodes 0xFE00707F#32 0x00005033#32 (fun w => .srl (w.extractLsb' 7 5) (w.extractLsb' 15 5) (w.extractLsb' 20 5)) ∧
  RowDecodes 0xFE00707F#32 0x40005033#32 (fun w => .sra (w.extractLsb' 7 5) (w.extractLsb' 15 5) (w.extractLsb' 20 5)) ∧
  ∀ rd rs1 rs2 s,
    ComputesInto (.srl rd rs1 rs2) s rd (BitVec.ofNat 32 ((getReg rs1 s).toNat / 2 ^ ((getReg rs2 s).toNat % 32))) (s.pc + 4#32) ∧
    ComputesInto (.sra rd rs1 rs2) s rd (BitVec.ofInt 32 ((getReg rs1 s).toInt / 2 ^ ((getReg rs2 s).toNat % 32))) (s.pc + 4#32)

/-- R208, R209, R210. That funct7 is not examined unless STRICT_DECODE is decision D7 (log entry 6). -/
def Obligations.SllSltSltuCompute : Prop :=
  RowDecodesUnder false 0x0000707F#32 0x00001033#32 (fun w => .sll (w.extractLsb' 7 5) (w.extractLsb' 15 5) (w.extractLsb' 20 5)) ∧
  RowDecodesUnder true 0xFE00707F#32 0x00001033#32 (fun w => .sll (w.extractLsb' 7 5) (w.extractLsb' 15 5) (w.extractLsb' 20 5)) ∧
  RowDecodesUnder false 0x0000707F#32 0x00002033#32 (fun w => .slt (w.extractLsb' 7 5) (w.extractLsb' 15 5) (w.extractLsb' 20 5)) ∧
  RowDecodesUnder true 0xFE00707F#32 0x00002033#32 (fun w => .slt (w.extractLsb' 7 5) (w.extractLsb' 15 5) (w.extractLsb' 20 5)) ∧
  RowDecodesUnder false 0x0000707F#32 0x00003033#32 (fun w => .sltu (w.extractLsb' 7 5) (w.extractLsb' 15 5) (w.extractLsb' 20 5)) ∧
  RowDecodesUnder true 0xFE00707F#32 0x00003033#32 (fun w => .sltu (w.extractLsb' 7 5) (w.extractLsb' 15 5) (w.extractLsb' 20 5)) ∧
  ∀ rd rs1 rs2 s,
    ComputesInto (.sll rd rs1 rs2) s rd (BitVec.ofNat 32 ((getReg rs1 s).toNat * 2 ^ ((getReg rs2 s).toNat % 32))) (s.pc + 4#32) ∧
    ComputesInto (.slt rd rs1 rs2) s rd (if (getReg rs1 s).toInt < (getReg rs2 s).toInt then 1#32 else 0#32) (s.pc + 4#32) ∧
    ComputesInto (.sltu rd rs1 rs2) s rd (if (getReg rs1 s).toNat < (getReg rs2 s).toNat then 1#32 else 0#32) (s.pc + 4#32)

/-- R211, R214, R215. That funct7 is not examined unless STRICT_DECODE is decision D7 (log entry 6). -/
def Obligations.XorOrAndAreBitwise : Prop :=
  RowDecodesUnder false 0x0000707F#32 0x00004033#32 (fun w => .xor (w.extractLsb' 7 5) (w.extractLsb' 15 5) (w.extractLsb' 20 5)) ∧
  RowDecodesUnder true 0xFE00707F#32 0x00004033#32 (fun w => .xor (w.extractLsb' 7 5) (w.extractLsb' 15 5) (w.extractLsb' 20 5)) ∧
  RowDecodesUnder false 0x0000707F#32 0x00006033#32 (fun w => .or (w.extractLsb' 7 5) (w.extractLsb' 15 5) (w.extractLsb' 20 5)) ∧
  RowDecodesUnder true 0xFE00707F#32 0x00006033#32 (fun w => .or (w.extractLsb' 7 5) (w.extractLsb' 15 5) (w.extractLsb' 20 5)) ∧
  RowDecodesUnder false 0x0000707F#32 0x00007033#32 (fun w => .and (w.extractLsb' 7 5) (w.extractLsb' 15 5) (w.extractLsb' 20 5)) ∧
  RowDecodesUnder true 0xFE00707F#32 0x00007033#32 (fun w => .and (w.extractLsb' 7 5) (w.extractLsb' 15 5) (w.extractLsb' 20 5)) ∧
  ∀ rd rs1 rs2 s, ∃ vx vo va : Word,
    ComputesInto (.xor rd rs1 rs2) s rd vx (s.pc + 4#32) ∧
    ComputesInto (.or rd rs1 rs2) s rd vo (s.pc + 4#32) ∧
    ComputesInto (.and rd rs1 rs2) s rd va (s.pc + 4#32) ∧
    ∀ k, k < 32 →
      vx.getLsbD k = ((getReg rs1 s).getLsbD k != (getReg rs2 s).getLsbD k) ∧
      vo.getLsbD k = ((getReg rs1 s).getLsbD k || (getReg rs2 s).getLsbD k) ∧
      va.getLsbD k = ((getReg rs1 s).getLsbD k && (getReg rs2 s).getLsbD k)

/-- R220. That FENCE is a no-operation is decision D15 (log entry 11), the unexamined funct3 decision D7 (log entry 6). -/
def Obligations.FenceOnlyAdvancesPc : Prop :=
  RowDecodesUnder false 0x0000007F#32 0x0000000F#32 (fun w => .fence (w.extractLsb' 28 4) (w.extractLsb' 24 4) (w.extractLsb' 20 4) (w.extractLsb' 15 5) (w.extractLsb' 7 5)) ∧
  RowDecodesUnder true 0x0000707F#32 0x0000000F#32 (fun w => .fence (w.extractLsb' 28 4) (w.extractLsb' 24 4) (w.extractLsb' 20 4) (w.extractLsb' 15 5) (w.extractLsb' 7 5)) ∧
  ∀ fm pred succ rs1 rd s, JumpsTo (.fence fm pred succ rs1 rd) s (s.pc + 4#32)

/-- R225, R226. The whole-word match is decision D8, the pc that stays decision D9 (log entry 8). -/
def Obligations.EcallEbreakHalt : Prop :=
  (∀ strict w, decode strict w = .ok .ecall ↔ w = 0x00000073#32) ∧
  (∀ strict w, decode strict w = .ok .ebreak ↔ w = 0x00100073#32) ∧
  ∀ s, HaltsAs .ecall s .ecall ∧ HaltsAs .ebreak s .ebreak

/-- R230 to R236. The pc that stays is decision D9 (log entry 8). -/
def Obligations.CsrFormsHaltAsIllegal : Prop :=
  RowDecodes 0x0000707F#32 0x00001073#32 (fun w => .csrrw (w.extractLsb' 7 5) (w.extractLsb' 20 12) (w.extractLsb' 15 5)) ∧
  RowDecodes 0x0000707F#32 0x00002073#32 (fun w => .csrrs (w.extractLsb' 7 5) (w.extractLsb' 20 12) (w.extractLsb' 15 5)) ∧
  RowDecodes 0x0000707F#32 0x00003073#32 (fun w => .csrrc (w.extractLsb' 7 5) (w.extractLsb' 20 12) (w.extractLsb' 15 5)) ∧
  RowDecodes 0x0000707F#32 0x00005073#32 (fun w => .csrrwi (w.extractLsb' 7 5) (w.extractLsb' 20 12) (w.extractLsb' 15 5)) ∧
  RowDecodes 0x0000707F#32 0x00006073#32 (fun w => .csrrsi (w.extractLsb' 7 5) (w.extractLsb' 20 12) (w.extractLsb' 15 5)) ∧
  RowDecodes 0x0000707F#32 0x00007073#32 (fun w => .csrrci (w.extractLsb' 7 5) (w.extractLsb' 20 12) (w.extractLsb' 15 5)) ∧
  ∀ i s, csrForm i = true → HaltsAs i s .illegalInstruction

/-- R22, and the reads of R21 that follow a write. -/
def Obligations.RegisterWriteReadsBack : Prop :=
  (∀ s, getReg 0#5 s = 0#32) ∧ (∀ v s, setReg 0#5 v s = s) ∧
  ∀ r v s, r ≠ 0#5 → getReg r (setReg r v s) = v ∧ (∀ q, q ≠ r → getReg q (setReg r v s) = getReg q s) ∧
    setReg r v s = { s with x := (setReg r v s).x }

/-- R62, R64, R65. -/
def Obligations.ByteAccessesAreBoundsChecked : Prop :=
  ∀ (a : Word) (s : State),
    (a.toNat < s.cfg.memSize → read8 a s = (readCell a.toNat s.mem, s)) ∧
    (s.cfg.memSize ≤ a.toNat → read8 a s = (0x00#8, { s with events := s.events ++ [.outOfRange a] })) ∧
    ∀ v : Byte,
      (a.toNat < s.cfg.memSize →
        write8 a v s = { s with mem := (write8 a v s).mem } ∧
        (Memory.wf s.mem → readCell a.toNat (write8 a v s).mem = v) ∧
        ∀ b, b ≠ a.toNat → readCell b (write8 a v s).mem = readCell b s.mem) ∧
      (s.cfg.memSize ≤ a.toNat → write8 a v s = { s with events := s.events ++ [.outOfRange a] })

/-- R67, R68. Addresses inside the access wrap modulo 2^32 (R74, decision D3, log entry 4). -/
def Obligations.WideReadsComposeBytes : Prop :=
  ∀ (a : Word) (s : State),
    (read16 a s).1 = (read8 (a + 1#32) s).1 ++ (read8 a s).1 ∧
    (read32 a s).1 = (read8 (a + 3#32) s).1 ++ (read8 (a + 2#32) s).1 ++ (read8 (a + 1#32) s).1 ++ (read8 a s).1 ∧
    (read16 a s).2 = { s with events := (read16 a s).2.events } ∧
    (read32 a s).2 = { s with events := (read32 a s).2.events }

/-- R69, R72. Addresses inside the access wrap modulo 2^32 (R74, decision D3, log entry 4). -/
def Obligations.WideWritesPutInRangeBytes : Prop :=
  ∀ (a : Word) (s : State), Memory.wf s.mem →
    (∀ (v : Half) (b : Word), peek8 b (write16 a v s) =
      if b.toNat < s.cfg.memSize ∧ b = a then v.extractLsb' 0 8
      else if b.toNat < s.cfg.memSize ∧ b = a + 1#32 then v.extractLsb' 8 8 else peek8 b s) ∧
    (∀ (v b : Word), peek8 b (write32 a v s) =
      if b.toNat < s.cfg.memSize ∧ b = a then v.extractLsb' 0 8
      else if b.toNat < s.cfg.memSize ∧ b = a + 1#32 then v.extractLsb' 8 8
      else if b.toNat < s.cfg.memSize ∧ b = a + 2#32 then v.extractLsb' 16 8
      else if b.toNat < s.cfg.memSize ∧ b = a + 3#32 then v.extractLsb' 24 8 else peek8 b s) ∧
    (∀ v : Word, (∀ k, k < 4 → (a + BitVec.ofNat 32 k).toNat < s.cfg.memSize) →
      (read32 a (write32 a v s)).1 = v) ∧
    (∀ v : Half, (∀ k, k < 2 → (a + BitVec.ofNat 32 k).toNat < s.cfg.memSize) →
      (read16 a (write16 a v s)).1 = v)

/-- R63: a mixed-width access sees the same bytes. The last clause is the spec's own derivation. -/
def Obligations.MixedWidthAccessesAgree : Prop :=
  ∀ (a v : Word) (s : State), Memory.wf s.mem →
    (∀ k, k < 4 → (a + BitVec.ofNat 32 k).toNat < s.cfg.memSize) →
    (read16 a (write32 a v s)).1 = v.extractLsb' 0 16 ∧
    (read16 (a + 2#32) (write32 a v s)).1 = v.extractLsb' 16 16 ∧
    ∀ k, k < 4 → (read8 (a + BitVec.ofNat 32 k) (write32 a v s)).1 = v.extractLsb' (8 * k) 8

/-- R66, R70, R71. The order is decision D4 (log entry 5), the wrap decision D3 (log entry 4). -/
def Obligations.AccessWarnsOncePerByteInOrder : Prop :=
  ∀ (n : Width) (a v : Word) (s : State),
    (memRead n a s).2.events = s.events ++ accessEvents n a s ∧
    (memWrite n a v s).events = s.events ++ accessEvents n a s ∧
    (accessEvents n a s = [] ↔ ∀ k, k < n.bytes → (a + BitVec.ofNat 32 k).toNat < s.cfg.memSize) ∧
    ((∀ k, k < n.bytes → s.cfg.memSize ≤ (a + BitVec.ofNat 32 k).toNat) →
      accessEvents n a s = (List.range n.bytes).map fun k => .outOfRange (a + BitVec.ofNat 32 k))

/-- R43, R170, R180: the warnings of the data access, for all eight memory instructions. The order is decision D4 (log entry 5). -/
def Obligations.LoadsAndStoresEmitTheirWarnings : Prop :=
  ∀ (rd rs1 rs2 : Reg) (imm : Word) (s t : State) (n : Width),
    (n = .byte ∧ exec (.lb rd rs1 imm) s = .next t) ∨ (n = .byte ∧ exec (.lbu rd rs1 imm) s = .next t) ∨
    (n = .half ∧ exec (.lh rd rs1 imm) s = .next t) ∨ (n = .half ∧ exec (.lhu rd rs1 imm) s = .next t) ∨
    (n = .word ∧ exec (.lw rd rs1 imm) s = .next t) ∨ (n = .byte ∧ exec (.sb rs1 rs2 imm) s = .next t) ∨
    (n = .half ∧ exec (.sh rs1 rs2 imm) s = .next t) ∨ (n = .word ∧ exec (.sw rs1 rs2 imm) s = .next t) →
    t.events = s.events ++ accessEvents n (effAddr rs1 imm s) s

/-- R98 to R102, bit by bit. -/
def Obligations.ImmediatesAreTheFormatsBits : Prop :=
  ∀ (w : Word) (k : Nat), k < 32 →
    (immI w).getLsbD k = (if k < 11 then w.getLsbD (20 + k) else w.getLsbD 31) ∧
    (immS w).getLsbD k = (if k < 5 then w.getLsbD (7 + k) else if k < 11 then w.getLsbD (20 + k) else w.getLsbD 31) ∧
    (immB w).getLsbD k = (if k = 0 then false else if k < 5 then w.getLsbD (7 + k)
      else if k < 11 then w.getLsbD (20 + k) else if k = 11 then w.getLsbD 7 else w.getLsbD 31) ∧
    (immU w).getLsbD k = (if k < 12 then false else w.getLsbD k) ∧
    (immJ w).getLsbD k = (if k = 0 then false else if k < 11 then w.getLsbD (20 + k)
      else if k = 11 then w.getLsbD 20 else if k < 20 then w.getLsbD k else w.getLsbD 31)

/-- Every instruction, every operand its encoding admits, both settings of STRICT_DECODE. -/
def Obligations.DecodeOfEncodeIsIdentity : Prop :=
  ∀ (i : Instr) (strict : Bool), i.wellFormed = true → decode strict (encode i) = .ok i

/-- Under STRICT_DECODE each accepted word has one meaning and each instruction one word (R112, decision D7, log entry 6). -/
def Obligations.StrictDecodeInvertsEncode : Prop :=
  ∀ (w : Word) (i : Instr), decode true w = .ok i ↔ (i.wellFormed = true ∧ encode i = w)

/-- R112. The parameter is decision D7 (log entry 6). -/
def Obligations.StrictDecodeOnlyNarrows : Prop :=
  ∀ w : Word,
    (decode true w = decode false w ∨ decode true w = .error .reservedField) ∧
    (decode true w = .error .reservedField ↔
      ((opcode w ∈ [0x67#7, 0x0F#7] ∧ funct3 w ≠ 0b000#3) ∨
       (opcode w = 0x13#7 ∧ funct3 w = 0b001#3 ∧ funct7 w ≠ 0#7) ∨
       (opcode w = 0x33#7 ∧ funct3 w ∈ [0b001#3, 0b010#3, 0b011#3, 0b100#3, 0b110#3, 0b111#3] ∧ funct7 w ≠ 0#7)))

/-- Words of the spec's own examples. -/
def Obligations.SampleWordsDecode : Prop :=
  decode false 0x123452B7#32 = .ok (.lui 5#5 0x12345000#32) ∧
  decode false 0xFF9FF06F#32 = .ok (.jal 0#5 (-8)) ∧
  decode false 0xFE029CE3#32 = .ok (.bne 5#5 0#5 (-8)) ∧
  decode false 0xFFC2A303#32 = .ok (.lw 6#5 5#5 (-4)) ∧
  decode false 0xFE62AE23#32 = .ok (.sw 5#5 6#5 (-4)) ∧
  decode false 0x4042D313#32 = .ok (.srai 6#5 5#5 4#5) ∧
  decode false 0x406283B3#32 = .ok (.sub 7#5 5#5 6#5) ∧
  decode false 0x00100073#32 = .ok .ebreak

/-- R113, with the parameter STRICT_DECODE of item 8: the words on which a running core halts as illegal. -/
def Obligations.IllegalSpaceHalts : Prop :=
  ∀ s : State, s.halted = false →
    ((∃ t, step s = .next t ∧ t.outcome = some (.halted .illegalInstruction)) ↔
      IllegalWord s.cfg.strictDecode (peek32 s.pc s))

/-- R241. The cause as an output of the step is decision D18 (log entry 2). -/
def Obligations.HaltCausesAreClosed : Prop :=
  ∀ s t : State, s.halted = false → step s = .next t →
    (t.halted = true ↔ (IllegalWord s.cfg.strictDecode (peek32 s.pc s) ∨ peek32 s.pc s = 0x00100073#32 ∨
      peek32 s.pc s = 0x00000073#32)) ∧
    (t.outcome = some (.halted .ebreak) ↔ peek32 s.pc s = 0x00100073#32) ∧
    (t.outcome = some (.halted .ecall) ↔ peek32 s.pc s = 0x00000073#32) ∧
    (t.halted = true ↔ ∃ c, t.outcome = some (.halted c))

/-- R244, R248. That the pc stays is decision D9 (log entry 8), the event order D4 (log entry 5). -/
def Obligations.HaltingStepChangesNothingElse : Prop :=
  ∀ s t : State, s.halted = false → step s = .next t → t.halted = true →
    t.pc = s.pc ∧ t.x = s.x ∧ (∀ r, getReg r t = getReg r s) ∧ t.mem = s.mem ∧ (∀ a, peek8 a t = peek8 a s) ∧
    t.cfg = s.cfg ∧ t.insnCount = s.insnCount + 1 ∧ t.events = accessEvents .word s.pc s

/-- R134, R42. The outcome as an output of the step is decision D18, Idle decision D10 (log entries 2, 7). -/
def Obligations.StepAlwaysCompletes : Prop :=
  ∀ s : State, ∃ t, step s = .next t ∧
    ((s.halted = true ∧ t.outcome = some .idle) ∨
     (s.halted = false ∧ t.halted = false ∧ t.outcome = some .retired) ∨
     (s.halted = false ∧ t.halted = true ∧ ∃ c, t.outcome = some (.halted c)))

/-- R130, R131, R132, R136. The order of the fetch warnings is decision D4 (log entry 5). -/
def Obligations.StepRunsDecodedInstruction : Prop :=
  ∀ (s : State) (i : Instr), s.halted = false →
    decode s.cfg.strictDecode (peek8 (s.pc + 3#32) s ++ peek8 (s.pc + 2#32) s ++ peek8 (s.pc + 1#32) s ++ peek8 s.pc s)
      = .ok i →
    step s = exec i { s with insnCount := s.insnCount + 1, events := accessEvents .word s.pc s }

/-- R242. That the pc stays is decision D9 (log entry 8). -/
def Obligations.UndecodableWordHaltsAsIllegal : Prop :=
  ∀ (s : State) (e : Illegal), s.halted = false → decode s.cfg.strictDecode (peek32 s.pc s) = .error e →
    ∃ t, step s = .next t ∧
      HaltsWith { s with insnCount := s.insnCount + 1, events := accessEvents .word s.pc s } t .illegalInstruction

/-- R130, R250. Idle is decision D10 (log entry 7). -/
def Obligations.HaltedStepIsIdle : Prop :=
  ∀ s : State, s.halted = true → step s = .next { s with outcome := some .idle, events := [] }

/-- R136. -/
def Obligations.EveryRunningStepCountsOnce : Prop :=
  ∀ s t : State, s.halted = false → step s = .next t → t.insnCount = s.insnCount + 1

/-- R133. -/
def Obligations.StepWritesAtMostOneRegister : Prop :=
  ∀ s t : State, step s = .next t → ∃ rd : Reg, ∀ r, r ≠ rd → getReg r t = getReg r s

/-- R29, R31, R250: no step changes a parameter or clears halted. That State holds the parameters is the model's choice
(log entry 1). What reset and the other operations do to halted is not said here: see
ResetRestoresEngineAndKeepsMemory. -/
def Obligations.StepKeepsParametersAndHalted : Prop :=
  ∀ s t : State, step s = .next t → t.cfg = s.cfg ∧ (s.halted = true → t.halted = true)

/-- The memory list canonical and within the array (R32), slot 0 of the register file 0 (R21), the pc even (R26, decision D12). -/
def Obligations.StepKeepsMachineInvariant : Prop :=
  ∀ s t : State, s.Inv → step s = .next t → t.Inv

/-- The state right after construction and reset. -/
def Obligations.ResetStateHasInvariant : Prop :=
  State.reset.Inv

/-- Construction, image load, reset and start of run (R41) establish or keep the invariant. -/
def Obligations.BootOperationsKeepInvariant : Prop :=
  (∀ c s, construct c = some s → s.Inv) ∧
  ∀ s : State, s.Inv →
    (resetEngine s).Inv ∧ (startRun s).Inv ∧ ∀ image t, loadImage image s = some t → t.Inv

/-- R272, R273. That the counter is cleared is decision D14 (log entry 12), the scope of reset D19 (log entry 14); the cleared record of the last step is the model's choice (log entry 2). -/
def Obligations.ResetRestoresEngineAndKeepsMemory : Prop :=
  ∀ s : State,
    getReg 0#5 (resetEngine s) = 0#32 ∧ (∀ r, r ≠ 0#5 → getReg r (resetEngine s) = 0xF0F0F0F0#32) ∧
    (resetEngine s).pc = 0#32 ∧ (resetEngine s).halted = false ∧ (resetEngine s).insnCount = 0 ∧
    (resetEngine s).mem = s.mem ∧ (∀ a, peek8 a (resetEngine s) = peek8 a s) ∧ (resetEngine s).cfg = s.cfg ∧
    resetEngine State.reset = State.reset

/-- R276, R277. The separate event is decision D17 (log entry 13). -/
def Obligations.StartRunLoadsCapacity : Prop :=
  ∀ s : State, startRun s = { s with x := (startRun s).x } ∧ (∀ r, r ≠ 2#5 → getReg r (startRun s) = getReg r s) ∧
    (s.cfg.legal → (getReg 2#5 (startRun s)).toNat = s.cfg.memSize) ∧
    (s.cfg.legal → inRange (getReg 2#5 (startRun s)) s = false)

/-- R60, R61, R270. The admissible range is decision D2 (log entry 15), the reset at construction D19 (log entry 14). -/
def Obligations.ConstructionRoundsAndFills : Prop :=
  (∀ c : Config, c.memSize % 16 = 0 ∧ c.memSizeReq ≤ c.memSize ∧ c.memSize < c.memSizeReq + 16) ∧
  (∀ c : Config, construct c = none ↔ (c.memSize < 16 ∨ 0xFFFFFFF0 < c.memSize)) ∧
  ∀ c s, construct c = some s → s.cfg = c ∧ resetEngine s = s ∧
    (∀ a : Word, a.toNat < c.memSize → peek8 a s = 0xA5#8) ∧
    ∀ a : Word, (∀ k, k < 4 → (a + BitVec.ofNat 32 k).toNat < c.memSize) → (read32 a s).1 = 0xA5A5A5A5#32

/-- R274, R275. The exclusive bound is decision D6 (log entry 15). -/
def Obligations.ImageLoadCopiesExactlyTheImage : Prop :=
  ∀ (image : List Byte) (s : State),
    (s.cfg.memSize < image.length → loadImage image s = none) ∧
    (image.length ≤ s.cfg.memSize → ∃ t, loadImage image s = some t ∧ t = { s with mem := t.mem } ∧
      (Memory.wf s.mem → ∀ k (h : k < image.length), readCell k t.mem = image[k]) ∧
      ∀ a, image.length ≤ a → readCell a t.mem = readCell a s.mem)

/-- R140, R141, R285. The meaning of the limit is decision D16 (log entry 13). -/
def Obligations.RunWithLimitEndsAtHaltOrLimit : Prop :=
  ∀ (s : State) (n fuel : Nat), s.cfg.insnLimit = some n → s.insnCount ≤ n → n ≤ s.insnCount + fuel →
    ∃ t es, run fuel s = .ended t es ∧ t.cfg = s.cfg ∧ t.insnCount ≤ n ∧ (t.halted = true ∨ t.insnCount = n)

/-- R140, R141: how the loop exits, with or without a limit. -/
def Obligations.RunEndsOnlyByHaltOrLimit : Prop :=
  ∀ (s t : State) (fuel : Nat) (es : List Event), run fuel s = .ended t es →
    t.halted = true ∨ ∃ n, s.cfg.insnLimit = some n ∧ n ≤ t.insnCount

/-- R81: a store is seen by every later fetch of that address, with nothing in between. -/
def Obligations.NextFetchSeesStoredWord : Prop :=
  ∀ (rs1 rs2 : Reg) (imm : Word) (s t : State), Memory.wf s.mem →
    (∀ k, k < 4 → (effAddr rs1 imm s + BitVec.ofNat 32 k).toNat < s.cfg.memSize) →
    exec (.sw rs1 rs2 imm) s = .next t →
    ∀ u : State, u.mem = t.mem → u.cfg = t.cfg → u.pc = effAddr rs1 imm s →
      (fetch (beginStep u)).1 = getReg rs2 s ∧ (fetch (beginStep u)).2.events = []

/-- R139, the spec's own derivation. The event order is decision D4 (log entry 5). -/
def Obligations.PcOutsideMemoryHalts : Prop :=
  ∀ s : State, s.halted = false → s.cfg.memSize ≤ s.pc.toNat → s.pc.toNat ≤ 0xFFFFFFFC →
    ∃ t, step s = .next t ∧ t.outcome = some (.halted .illegalInstruction) ∧ t.halted = true ∧ t.pc = s.pc ∧
      t.events = [.outOfRange s.pc, .outOfRange (s.pc + 1#32), .outOfRange (s.pc + 2#32), .outOfRange (s.pc + 3#32)]

/-- R116, the spec's own derivation: running into memory that neither image nor store has written. -/
def Obligations.UnwrittenMemoryHalts : Prop :=
  ∀ s : State, s.halted = false → (∀ k, k < 4 → (s.pc + BitVec.ofNat 32 k).toNat < s.cfg.memSize) →
    (∀ k, k < 4 → readCell (s.pc + BitVec.ofNat 32 k).toNat s.mem = 0xA5#8) →
    ∃ t, step s = .next t ∧ t.outcome = some (.halted .illegalInstruction) ∧ t.pc = s.pc ∧ t.events = []
end

