-- ==== Sys2Proof/Tests/Slice0.lean ====
section
/-! SUPPORT. The model's own tests. Every expected value is a worked value of the spec: the vectors V-… of
95_test_vectors.md (named on each test) and the encoding tables of 30_encoding.md and 41 to 49. The last section
gives, for every statement with hypotheses, a state and operands that meet them. -/

namespace Sys2Proof.Machine

/-! ## Helpers -/

/-- The memory m after single-byte writes. -/
def pokes (cells : List (Nat × Byte)) (m : Memory) : Memory := cells.foldl (fun m c => writeCell c.1 c.2 m) m

/-- s after register writes. -/
def sets (regs : List (Reg × Word)) (s : State) : State := regs.foldl (fun s r => setReg r.1 r.2 s) s

/-- The start of a single-step vector: the reset state with the listed registers and bytes, and the word at the pc. -/
def start (strict : Bool) (pc : Word) (regs : List (Reg × Word)) (cells : List (Nat × Byte)) (w : Word) : State :=
  placeWord w (sets regs { State.reset with pc := pc, mem := pokes cells [], cfg := { strictDecode := strict } })

/-- What a vector's last column says of the state after: nothing else changes, and one instruction was counted. -/
def changed (regs : List (Reg × Word)) (cells : List (Nat × Byte)) (pc : Word) (halted : Bool) (o : StepOutcome)
    (es : List Event) (s : State) : State :=
  sets regs { s with pc := pc, mem := pokes cells s.mem, halted := halted, outcome := some o, events := es,
                     insnCount := s.insnCount + 1 }

/-- The step from s gives exactly f s. -/
def stepsTo (s : State) (f : State → State) : Bool :=
  match step s with
  | .next t => t == f s
  | _ => false

/-! ## WellFormed: an ill-formed term for each check, and the bounds that pass -/

theorem test_wf_imm12_too_big : (Instr.addi 1#5 0#5 2048#32).wellFormed = false := by decide
theorem test_wf_imm12_too_small : (Instr.sw 1#5 2#5 (-2049)).wellFormed = false := by decide
theorem test_wf_imm12_bounds :
    (Instr.jalr 1#5 0#5 2047#32).wellFormed = true ∧ (Instr.lw 1#5 0#5 (-2048)).wellFormed = true := by decide
theorem test_wf_immB_odd : (Instr.beq 1#5 0#5 7#32).wellFormed = false := by decide
theorem test_wf_immB_range :
    (Instr.bgeu 1#5 0#5 4096#32).wellFormed = false ∧ (Instr.bne 1#5 0#5 (-4098)).wellFormed = false := by decide
theorem test_wf_immB_bounds :
    (Instr.blt 1#5 0#5 4094#32).wellFormed = true ∧ (Instr.blt 1#5 0#5 (-4096)).wellFormed = true := by decide
theorem test_wf_immU_low_bits :
    (Instr.lui 1#5 0x12345001#32).wellFormed = false ∧ (Instr.auipc 1#5 0x00000800#32).wellFormed = false := by decide
theorem test_wf_immJ_odd : (Instr.jal 1#5 3#32).wellFormed = false := by decide
theorem test_wf_immJ_range :
    (Instr.jal 1#5 1048576#32).wellFormed = false ∧ (Instr.jal 1#5 (-1048578)).wellFormed = false := by decide
theorem test_wf_immJ_bounds :
    (Instr.jal 1#5 1048574#32).wellFormed = true ∧ (Instr.jal 1#5 (-1048576)).wellFormed = true := by decide

/-! ## Decoding: a word of the spec for every constructor -/

/-- V-U1, V-U4. Bits 31:12 are the immediate, 11:7 rd, 6:0 the opcode. -/
theorem test_decode_upper :
    decode false 0b00010010001101000101_00101_0110111#32 = .ok (.lui 5#5 0x12345000#32) ∧
    decode false 0b00000000000000000001_00101_0010111#32 = .ok (.auipc 5#5 0x1000#32) := by decide

/-- V-J1 and V-J2 (imm[20] imm[10:1] imm[11] imm[19:12]), V-J8. -/
theorem test_decode_jumps :
    decode false 0b0_0000001000_0_00000000_00001_1101111#32 = .ok (.jal 1#5 16#32) ∧
    decode false 0xFF9FF06F#32 = .ok (.jal 0#5 (-8)) ∧
    decode false 0b111111111101_00101_000_00101_1100111#32 = .ok (.jalr 5#5 5#5 (-3)) := by decide

/-- V-B1, V-B3, V-B5, V-B8, V-B10, V-B12 and the extreme offsets V-DE7, V-DE8. -/
theorem test_decode_branches :
    decode false 0b0000000_00000_00000_000_01000_1100011#32 = .ok (.beq 0#5 0#5 8#32) ∧
    decode false 0b1111111_00000_00101_001_11001_1100011#32 = .ok (.bne 5#5 0#5 (-8)) ∧
    decode false 0x0020C663#32 = .ok (.blt 1#5 2#5 12#32) ∧ decode false 0x0020D663#32 = .ok (.bge 1#5 2#5 12#32) ∧
    decode false 0x0020E663#32 = .ok (.bltu 1#5 2#5 12#32) ∧ decode false 0x0020F663#32 = .ok (.bgeu 1#5 2#5 12#32) ∧
    decode false 0x80000063#32 = .ok (.beq 0#5 0#5 (-4096)) ∧
    decode false 0x7E000FE3#32 = .ok (.beq 0#5 0#5 4094#32) := by decide

/-- V-L2, V-L4, V-L9, V-L3, V-L5. -/
theorem test_decode_loads :
    decode false 0b000000000001_00101_000_00110_0000011#32 = .ok (.lb 6#5 5#5 1#32) ∧
    decode false 0x00229303#32 = .ok (.lh 6#5 5#5 2#32) ∧ decode false 0xFFC2A303#32 = .ok (.lw 6#5 5#5 (-4)) ∧
    decode false 0x0002C303#32 = .ok (.lbu 6#5 5#5 0#32) ∧ decode false 0x0022D303#32 = .ok (.lhu 6#5 5#5 2#32) := by
  decide

/-- V-S1, V-S2, V-S3. -/
theorem test_decode_stores :
    decode false 0x00628023#32 = .ok (.sb 5#5 6#5 0#32) ∧ decode false 0x00629123#32 = .ok (.sh 5#5 6#5 2#32) ∧
    decode false 0b1111111_00110_00101_010_11100_0100011#32 = .ok (.sw 5#5 6#5 (-4)) := by decide

/-- V-DE2, V-DE3, V-I9, V-I14, V-I17, V-I18, V-I20, V-I23, V-I25, V-I29. -/
theorem test_decode_alu_immediate :
    decode false 0b111111111111_00000_000_00001_0010011#32 = .ok (.addi 1#5 0#5 (-1)) ∧
    decode false 0x7FF00093#32 = .ok (.addi 1#5 0#5 2047#32) ∧ decode false 0xFFF2A313#32 = .ok (.slti 6#5 5#5 (-1)) ∧
    decode false 0x0012B313#32 = .ok (.sltiu 6#5 5#5 1#32) ∧ decode false 0xFFF2C313#32 = .ok (.xori 6#5 5#5 (-1)) ∧
    decode false 0x0F02E313#32 = .ok (.ori 6#5 5#5 0xF0#32) ∧ decode false 0x0FF2F313#32 = .ok (.andi 6#5 5#5 0xFF#32) ∧
    decode false 0x01F29313#32 = .ok (.slli 6#5 5#5 31#5) ∧ decode false 0x0042D313#32 = .ok (.srli 6#5 5#5 4#5) ∧
    decode false 0b0100000_11111_00101_101_00110_0010011#32 = .ok (.srai 6#5 5#5 31#5) := by decide

/-- V-RR1, V-RR3, V-RR6, V-RR10, V-RR12, V-RR15, V-RR16, V-RR17, V-RR19, V-RR20. -/
theorem test_decode_alu_register :
    decode false 0b0000000_00110_00101_000_00111_0110011#32 = .ok (.add 7#5 5#5 6#5) ∧
    decode false 0x406283B3#32 = .ok (.sub 7#5 5#5 6#5) ∧ decode false 0x006293B3#32 = .ok (.sll 7#5 5#5 6#5) ∧
    decode false 0x0062A3B3#32 = .ok (.slt 7#5 5#5 6#5) ∧ decode false 0x0062B3B3#32 = .ok (.sltu 7#5 5#5 6#5) ∧
    decode false 0x0062C3B3#32 = .ok (.xor 7#5 5#5 6#5) ∧ decode false 0x0062D3B3#32 = .ok (.srl 7#5 5#5 6#5) ∧
    decode false 0x4062D3B3#32 = .ok (.sra 7#5 5#5 6#5) ∧ decode false 0x0062E3B3#32 = .ok (.or 7#5 5#5 6#5) ∧
    decode false 0x0062F3B3#32 = .ok (.and 7#5 5#5 6#5) := by decide

/-- V-F1, V-F3. -/
theorem test_decode_fence :
    decode false 0b0000_1111_1111_00000_000_00000_0001111#32 = .ok (.fence 0#4 15#4 15#4 0#5 0#5) ∧
    decode false 0x0000128F#32 = .ok (.fence 0#4 0#4 0#4 0#5 5#5) := by decide

/-- V-Y1, V-Y2, V-Y5 to V-Y10. -/
theorem test_decode_system :
    decode false 0x00000073#32 = .ok .ecall ∧ decode false 0x00100073#32 = .ok .ebreak ∧
    decode false 0b001101000000_00101_001_00000_1110011#32 = .ok (.csrrw 0#5 0x340#12 5#5) ∧
    decode false 0xC00022F3#32 = .ok (.csrrs 5#5 0xC00#12 0#5) ∧
    decode false 0x3002B073#32 = .ok (.csrrc 0#5 0x300#12 5#5) ∧
    decode false 0x3400D073#32 = .ok (.csrrwi 0#5 0x340#12 1#5) ∧
    decode false 0x30046073#32 = .ok (.csrrsi 0#5 0x300#12 8#5) ∧
    decode false 0x30047073#32 = .ok (.csrrci 0#5 0x300#12 8#5) := by decide

/-- One word for each item of 30_encoding.md R113: V-Y16, V-Y15, V-B16, V-L19, V-S10, V-I30, V-RR23, V-RR26, V-Y3,
V-Y4, V-Y13. -/
theorem test_illegal_words :
    decode false 0xA5A5A5A5#32 = .error .unknownOpcode ∧ decode false 0xFFFFFFFF#32 = .error .unknownOpcode ∧
    decode false 0x00002463#32 = .error .branchFunct3 ∧ decode false 0x0002B303#32 = .error .loadFunct3 ∧
    decode false 0x0062B023#32 = .error .storeFunct3 ∧ decode false 0x0242D313#32 = .error .shiftImmFunct7 ∧
    decode false 0x02208033#32 = .error .regAluFunct7 ∧ decode false 0x0220D0B3#32 = .error .regAluFunct7 ∧
    decode false 0x00200073#32 = .error .systemWord ∧ decode false 0x001000F3#32 = .error .systemWord ∧
    decode false 0x00004073#32 = .error .systemWord := by decide

/-- Words only STRICT_DECODE refuses: V-J11, V-I34, V-RR25, V-F4. -/
theorem test_strict_words :
    decode true 0x0042A0E7#32 = .error .reservedField ∧ decode false 0x0042A0E7#32 = .ok (.jalr 1#5 5#5 4#32) ∧
    decode true 0x02009093#32 = .error .reservedField ∧ decode false 0x02009093#32 = .ok (.slli 1#5 1#5 0#5) ∧
    decode true 0x022090B3#32 = .error .reservedField ∧ decode false 0x022090B3#32 = .ok (.sll 1#5 1#5 2#5) ∧
    decode true 0x0000128F#32 = .error .reservedField := by decide

/-- Fewer than four bytes are no instruction (30_encoding.md R90); four bytes are, little-endian (E6). -/
theorem test_decode_bytes :
    decodeBytes false [0x93#8, 0x00#8, 0x50#8] = .error .truncated ∧
    decodeBytes false [0x93#8, 0x00#8, 0x50#8, 0x00#8, 0x73#8] = .ok (.addi 1#5 0#5 5#32, [0x73#8]) := by decide

/-- The encoder against the spec's words: V-J2, V-B3, V-S3, V-I29. -/
theorem test_encode :
    encode (.jal 0#5 (-8)) = 0xFF9FF06F#32 ∧ encode (.bne 5#5 0#5 (-8)) = 0xFE029CE3#32 ∧
    encode (.sw 5#5 6#5 (-4)) = 0xFE62AE23#32 ∧ encode (.srai 6#5 5#5 31#5) = 0x41F2D313#32 := by decide

/-- Placing an opcode-table word makes the next step run it: FENCE as bare opcode bits. -/
theorem test_with_fetch_word :
    decodeTableWord 32 0x0FF0000F = some (.fence 0#4 15#4 15#4 0#5 0#5) ∧
    stepsTo (State.reset.withFetchWord 32 0x0FF0000F) (changed [] [] 4#32 false .retired []) = true := by decide

/-! ## Memory, construction, reset and start of run -/

/-- V-M1, V-M2. -/
theorem test_write32_little_endian :
    let s := write32 0x200#32 0x12345678#32 State.reset
    (read32 0x200#32 s).1 = 0x12345678#32 ∧ (read16 0x200#32 s).1 = 0x5678#16 ∧ (read16 0x202#32 s).1 = 0x1234#16 ∧
    (read8 0x200#32 s).1 = 0x78#8 ∧ (read8 0x203#32 s).1 = 0x12#8 ∧ s.events = [] := by decide

/-- V-M3. -/
theorem test_write16_leaves_fill :
    (read32 0x210#32 (write16 0x210#32 0xBEEF#16 State.reset)).1 = 0xA5A5BEEF#32 := by decide

/-- V-M7, V-M9, V-M10. -/
theorem test_reads_at_the_end :
    read32 0xFFFD#32 State.reset = (0x00A5A5A5#32, { State.reset with events := [.outOfRange 0x10000#32] }) ∧
    read16 0xFFFFFFFF#32 State.reset = (0xA500#16, { State.reset with events := [.outOfRange 0xFFFFFFFF#32] }) ∧
    read8 0xFFFF#32 State.reset = (0xA5#8, State.reset) := by decide

/-- V-M8. -/
theorem test_write32_dropped_in_order :
    write32 0xFFFF#32 0xAABBCCDD#32 State.reset =
      { State.reset with mem := [(0xFFFF, 0xDD#8)],
                         events := [.outOfRange 0x10000#32, .outOfRange 0x10001#32, .outOfRange 0x10002#32] } := by decide

/-- Writing the fill byte takes the entry out again, so that equal memories are equal lists. -/
theorem test_canonical_form :
    writeCell 5 0xA5#8 (writeCell 5 0x11#8 (writeCell 9 0x22#8 [])) = [(9, 0x22#8)] := by decide

/-- V-CS1 to V-CS5. -/
theorem test_capacity :
    ({ memSizeReq := 65536 } : Config).memSize = 65536 ∧ ({ memSizeReq := 1 } : Config).memSize = 16 ∧
    ({ memSizeReq := 17 } : Config).memSize = 32 ∧ ({ memSizeReq := 32 } : Config).memSize = 32 ∧
    ({ memSizeReq := 65537 } : Config).memSize = 65552 := by decide

/-- V-CS6, V-CS7. -/
theorem test_reset_and_start :
    getReg 0#5 State.reset = 0#32 ∧ getReg 1#5 State.reset = 0xF0F0F0F0#32 ∧ getReg 2#5 State.reset = 0xF0F0F0F0#32 ∧
    getReg 31#5 State.reset = 0xF0F0F0F0#32 ∧ State.reset.pc = 0#32 ∧ State.reset.halted = false ∧
    State.reset.insnCount = 0 ∧ getReg 2#5 (startRun State.reset) = 0x10000#32 ∧
    getReg 3#5 (startRun State.reset) = 0xF0F0F0F0#32 := by decide

/-- V-CS11: three bytes leave the fill above them. -/
theorem test_image_of_three_bytes :
    (loadImage [0x93#8, 0x00#8, 0x50#8] State.reset).map (peek32 0#32) = some 0xA5500093#32 := by decide

/-- V-CS12, V-CS13: a halted core idles, and only reset runs it again. -/
theorem test_idle_and_reset :
    let s := { State.reset with halted := true, insnCount := 7, pc := 0x18#32, mem := [(3, 0x01#8)] }
    step s = .next { s with outcome := some .idle, events := [] } ∧
    resetEngine s = { State.reset with mem := [(3, 0x01#8)] } := ⟨rfl, rfl⟩

/-- P6d: under INSN_LIMIT = 0 the run starts and takes no step. -/
theorem test_limit_zero :
    let s := { State.reset with cfg := { insnLimit := some 0 } }
    run 3 s = .ended (startRun s) [] := rfl

/-- V-CS10: a run over unwritten memory halts as illegal after one step, with x[2] the capacity. -/
theorem test_run_over_fill :
    (match run 2 { State.reset with cfg := { memSizeReq := 32 } } with
      | .ended t es => decide (t.pc = 0#32 ∧ t.insnCount = 1 ∧ t.outcome = some (.halted .illegalInstruction) ∧
          getReg 2#5 t = 32#32 ∧ es = [])
      | _ => false) = true := by decide

/-- The run-end test looks at the word at the final pc (15_interfaces.md R48). -/
theorem test_at_breakpoint :
    atBreakpoint (placeWord 0x00100073#32 State.reset) = true ∧ atBreakpoint State.reset = false := by decide

/-! ## One step of each instruction -/

/-- V-U1. -/
theorem test_lui_immediate :
    stepsTo (start false 0x00000000#32 [] [] 0x123452B7#32)
      (changed [(5#5, 0x12345000#32)] [] 0x00000004#32 false (.retired) []) = true := by decide

/-- V-U3. -/
theorem test_lui_rd_zero :
    stepsTo (start false 0x00000000#32 [] [] 0x12345037#32)
      (changed [(0#5, 0x00000000#32)] [] 0x00000004#32 false (.retired) []) = true := by decide

/-- V-U5. -/
theorem test_auipc_wraps :
    stepsTo (start false 0x00000010#32 [] [] 0xFFFFF317#32)
      (changed [(6#5, 0xFFFFF010#32)] [] 0x00000014#32 false (.retired) []) = true := by decide

/-- V-J5. -/
theorem test_jal_wraps :
    stepsTo (start false 0x00000000#32 [] [] 0xFF9FF0EF#32)
      (changed [(1#5, 0x00000004#32)] [] 0xFFFFFFF8#32 false (.retired) []) = true := by decide

/-- V-J3. -/
theorem test_jal_unaligned_target :
    stepsTo (start false 0x00000100#32 [] [] 0x002000EF#32)
      (changed [(1#5, 0x00000104#32)] [] 0x00000102#32 false (.retired) []) = true := by decide

/-- V-J8. -/
theorem test_jalr_rd_is_rs1 :
    stepsTo (start false 0x00000020#32 [(5#5, 0x00000103#32)] [] 0xFFD282E7#32)
      (changed [(5#5, 0x00000024#32)] [] 0x00000100#32 false (.retired) []) = true := by decide

/-- V-J9. -/
theorem test_jalr_clears_bit_zero :
    stepsTo (start false 0x00000020#32 [] [] 0xFFF000E7#32)
      (changed [(1#5, 0x00000024#32)] [] 0xFFFFFFFE#32 false (.retired) []) = true := by decide

/-- V-B14. -/
theorem test_beq_most_negative :
    stepsTo (start false 0x00001000#32 [] [] 0x80000063#32)
      (changed [] [] 0x00000000#32 false (.retired) []) = true := by decide

/-- V-B2. -/
theorem test_beq_not_taken :
    stepsTo (start false 0x00000100#32 [(1#5, 0x00000005#32), (2#5, 0x00000006#32)] [] 0x00208463#32)
      (changed [] [] 0x00000104#32 false (.retired) []) = true := by decide

/-- V-B3. -/
theorem test_bne_taken :
    stepsTo (start false 0x00000010#32 [(5#5, 0x00000003#32)] [] 0xFE029CE3#32)
      (changed [] [] 0x00000008#32 false (.retired) []) = true := by decide

/-- V-B4. -/
theorem test_bne_not_taken :
    stepsTo (start false 0x00000010#32 [(5#5, 0x00000000#32)] [] 0xFE029CE3#32)
      (changed [] [] 0x00000014#32 false (.retired) []) = true := by decide

/-- V-B7. -/
theorem test_blt_taken :
    stepsTo (start false 0x00000020#32 [(1#5, 0x80000000#32), (2#5, 0x7FFFFFFF#32)] [] 0x0020C663#32)
      (changed [] [] 0x0000002C#32 false (.retired) []) = true := by decide

/-- V-B6. -/
theorem test_blt_not_taken :
    stepsTo (start false 0x00000020#32 [(1#5, 0x00000001#32), (2#5, 0xFFFFFFFF#32)] [] 0x0020C663#32)
      (changed [] [] 0x00000024#32 false (.retired) []) = true := by decide

/-- V-B8. -/
theorem test_bge_signed :
    stepsTo (start false 0x00000020#32 [(1#5, 0x00000001#32), (2#5, 0xFFFFFFFF#32)] [] 0x0020D663#32)
      (changed [] [] 0x0000002C#32 false (.retired) []) = true := by decide

/-- V-B9. -/
theorem test_bge_equal :
    stepsTo (start false 0x00000020#32 [(1#5, 0x00000007#32), (2#5, 0x00000007#32)] [] 0x0020D663#32)
      (changed [] [] 0x0000002C#32 false (.retired) []) = true := by decide

/-- V-B10. -/
theorem test_bltu_taken :
    stepsTo (start false 0x00000020#32 [(1#5, 0x00000001#32), (2#5, 0xFFFFFFFF#32)] [] 0x0020E663#32)
      (changed [] [] 0x0000002C#32 false (.retired) []) = true := by decide

/-- V-B11. -/
theorem test_bltu_not_taken :
    stepsTo (start false 0x00000020#32 [(1#5, 0xFFFFFFFF#32), (2#5, 0x00000001#32)] [] 0x0020E663#32)
      (changed [] [] 0x00000024#32 false (.retired) []) = true := by decide

/-- V-B12. -/
theorem test_bgeu_taken :
    stepsTo (start false 0x00000020#32 [(1#5, 0xFFFFFFFF#32), (2#5, 0x00000001#32)] [] 0x0020F663#32)
      (changed [] [] 0x0000002C#32 false (.retired) []) = true := by decide

/-- V-B13. -/
theorem test_bgeu_not_taken :
    stepsTo (start false 0x00000020#32 [(1#5, 0x00000000#32), (2#5, 0x00000001#32)] [] 0x0020F663#32)
      (changed [] [] 0x00000024#32 false (.retired) []) = true := by decide

/-- V-L1. -/
theorem test_lb_negative :
    stepsTo (start false 0x00000000#32 [(5#5, 0x00000100#32)] [(0x100, 0x80#8), (0x101, 0x7F#8), (0x102, 0x34#8), (0x103, 0x82#8)] 0x00028303#32)
      (changed [(6#5, 0xFFFFFF80#32)] [] 0x00000004#32 false (.retired) []) = true := by decide

/-- V-L15. -/
theorem test_lb_out_of_range :
    stepsTo (start false 0x00000000#32 [(5#5, 0xFFFFFFF0#32)] [] 0x00028303#32)
      (changed [(6#5, 0x00000000#32)] [] 0x00000004#32 false (.retired) [.outOfRange 0xFFFFFFF0#32]) = true := by decide

/-- V-L4. -/
theorem test_lh_negative :
    stepsTo (start false 0x00000000#32 [(5#5, 0x00000100#32)] [(0x100, 0x80#8), (0x101, 0x7F#8), (0x102, 0x34#8), (0x103, 0x82#8)] 0x00229303#32)
      (changed [(6#5, 0xFFFF8234#32)] [] 0x00000004#32 false (.retired) []) = true := by decide

/-- V-L14. -/
theorem test_lh_straddles :
    stepsTo (start false 0x00000000#32 [(5#5, 0x00010000#32)] [(0xFFFF, 0x91#8)] 0xFFF29303#32)
      (changed [(6#5, 0x00000091#32)] [] 0x00000004#32 false (.retired) [.outOfRange 0x10000#32]) = true := by decide

/-- V-L18. -/
theorem test_lw_wraps_to_zero :
    stepsTo (start false 0x00000010#32 [] [(0x0, 0xEF#8), (0x1, 0xBE#8)] 0xFFE02303#32)
      (changed [(6#5, 0xBEEF0000#32)] [] 0x00000014#32 false (.retired) [.outOfRange 0xFFFFFFFE#32, .outOfRange 0xFFFFFFFF#32]) = true := by decide

/-- V-L16. -/
theorem test_lw_rd_zero_warns :
    stepsTo (start false 0x00000000#32 [(5#5, 0x00010000#32)] [] 0x0002A003#32)
      (changed [(0#5, 0x00000000#32)] [] 0x00000004#32 false (.retired) [.outOfRange 0x10000#32, .outOfRange 0x10001#32, .outOfRange 0x10002#32, .outOfRange 0x10003#32]) = true := by decide

/-- V-L3. -/
theorem test_lbu_zero_extends :
    stepsTo (start false 0x00000000#32 [(5#5, 0x00000100#32)] [(0x100, 0x80#8), (0x101, 0x7F#8), (0x102, 0x34#8), (0x103, 0x82#8)] 0x0002C303#32)
      (changed [(6#5, 0x00000080#32)] [] 0x00000004#32 false (.retired) []) = true := by decide

/-- V-L5. -/
theorem test_lhu_zero_extends :
    stepsTo (start false 0x00000000#32 [(5#5, 0x00000100#32)] [(0x100, 0x80#8), (0x101, 0x7F#8), (0x102, 0x34#8), (0x103, 0x82#8)] 0x0022D303#32)
      (changed [(6#5, 0x00008234#32)] [] 0x00000004#32 false (.retired) []) = true := by decide

/-- V-S12. -/
theorem test_sb_low_byte :
    stepsTo (start false 0x00000000#32 [(5#5, 0x00000100#32), (6#5, 0xFFFFFF00#32)] [] 0x00628023#32)
      (changed [] [(0x100, 0x00#8)] 0x00000004#32 false (.retired) []) = true := by decide

/-- V-S7. -/
theorem test_sh_straddles :
    stepsTo (start false 0x00000000#32 [(5#5, 0x00010000#32), (6#5, 0x12345678#32)] [] 0xFE629FA3#32)
      (changed [] [(0xFFFF, 0x78#8)] 0x00000004#32 false (.retired) [.outOfRange 0x10000#32]) = true := by decide

/-- V-S6. -/
theorem test_sw_straddles :
    stepsTo (start false 0x00000000#32 [(5#5, 0x00010000#32), (6#5, 0x12345678#32)] [] 0xFE62AF23#32)
      (changed [] [(0xFFFE, 0x78#8), (0xFFFF, 0x56#8)] 0x00000004#32 false (.retired) [.outOfRange 0x10000#32, .outOfRange 0x10001#32]) = true := by decide

/-- V-S9. -/
theorem test_sw_wraps_to_zero :
    stepsTo (start false 0x00000010#32 [(6#5, 0x12345678#32)] [] 0xFE602F23#32)
      (changed [] [(0x0, 0x34#8), (0x1, 0x12#8)] 0x00000014#32 false (.retired) [.outOfRange 0xFFFFFFFE#32, .outOfRange 0xFFFFFFFF#32]) = true := by decide

/-- V-I5. -/
theorem test_addi_wraps :
    stepsTo (start false 0x00000000#32 [(5#5, 0x7FFFFFFF#32)] [] 0x00128293#32)
      (changed [(5#5, 0x80000000#32)] [] 0x00000004#32 false (.retired) []) = true := by decide

/-- V-I7. -/
theorem test_addi_no_operation :
    stepsTo (start false 0x00000000#32 [] [] 0x00000013#32)
      (changed [(0#5, 0x00000000#32)] [] 0x00000004#32 false (.retired) []) = true := by decide

/-- V-I9. -/
theorem test_slti_less :
    stepsTo (start false 0x00000000#32 [(5#5, 0x80000000#32)] [] 0xFFF2A313#32)
      (changed [(6#5, 0x00000001#32)] [] 0x00000004#32 false (.retired) []) = true := by decide

/-- V-I11. -/
theorem test_slti_equal :
    stepsTo (start false 0x00000000#32 [(5#5, 0xFFFFFFFF#32)] [] 0xFFF2A313#32)
      (changed [(6#5, 0x00000000#32)] [] 0x00000004#32 false (.retired) []) = true := by decide

/-- V-I12. -/
theorem test_sltiu_extended_immediate :
    stepsTo (start false 0x00000000#32 [(5#5, 0x00000005#32)] [] 0xFFF2B313#32)
      (changed [(6#5, 0x00000001#32)] [] 0x00000004#32 false (.retired) []) = true := by decide

/-- V-I13. -/
theorem test_sltiu_equal :
    stepsTo (start false 0x00000000#32 [(5#5, 0xFFFFFFFF#32)] [] 0xFFF2B313#32)
      (changed [(6#5, 0x00000000#32)] [] 0x00000004#32 false (.retired) []) = true := by decide

/-- V-I17. -/
theorem test_xori_not :
    stepsTo (start false 0x00000000#32 [(5#5, 0x12345678#32)] [] 0xFFF2C313#32)
      (changed [(6#5, 0xEDCBA987#32)] [] 0x00000004#32 false (.retired) []) = true := by decide

/-- V-I19. -/
theorem test_ori_extended_immediate :
    stepsTo (start false 0x00000000#32 [(5#5, 0x00000001#32)] [] 0x8002E313#32)
      (changed [(6#5, 0xFFFFF801#32)] [] 0x00000004#32 false (.retired) []) = true := by decide

/-- V-I21. -/
theorem test_andi_extended_immediate :
    stepsTo (start false 0x00000000#32 [(5#5, 0x12345678#32)] [] 0xFF02F313#32)
      (changed [(6#5, 0x12345670#32)] [] 0x00000004#32 false (.retired) []) = true := by decide

/-- V-I23. -/
theorem test_slli_by_31 :
    stepsTo (start false 0x00000000#32 [(5#5, 0x00000003#32)] [] 0x01F29313#32)
      (changed [(6#5, 0x80000000#32)] [] 0x00000004#32 false (.retired) []) = true := by decide

/-- V-I33. -/
theorem test_slli_funct7_unexamined :
    stepsTo (start false 0x00000000#32 [(5#5, 0x12345678#32)] [] 0x40429313#32)
      (changed [(6#5, 0x23456780#32)] [] 0x00000004#32 false (.retired) []) = true := by decide

/-- V-I25. -/
theorem test_srli_zeros_enter :
    stepsTo (start false 0x00000000#32 [(5#5, 0x87654321#32)] [] 0x0042D313#32)
      (changed [(6#5, 0x08765432#32)] [] 0x00000004#32 false (.retired) []) = true := by decide

/-- V-I27. -/
theorem test_srai_ones_enter :
    stepsTo (start false 0x00000000#32 [(5#5, 0x87654321#32)] [] 0x4042D313#32)
      (changed [(6#5, 0xF8765432#32)] [] 0x00000004#32 false (.retired) []) = true := by decide

/-- V-I28. -/
theorem test_srai_zeros_enter :
    stepsTo (start false 0x00000000#32 [(5#5, 0x12345678#32)] [] 0x4042D313#32)
      (changed [(6#5, 0x01234567#32)] [] 0x00000004#32 false (.retired) []) = true := by decide

/-- V-RR1. -/
theorem test_add_wraps :
    stepsTo (start false 0x00000000#32 [(5#5, 0x7FFFFFFF#32), (6#5, 0x00000001#32)] [] 0x006283B3#32)
      (changed [(7#5, 0x80000000#32)] [] 0x00000004#32 false (.retired) []) = true := by decide

/-- V-RR21. -/
theorem test_add_one_register :
    stepsTo (start false 0x00000000#32 [(5#5, 0x40000001#32)] [] 0x005282B3#32)
      (changed [(5#5, 0x80000002#32)] [] 0x00000004#32 false (.retired) []) = true := by decide

/-- V-RR3. -/
theorem test_sub_borrow :
    stepsTo (start false 0x00000000#32 [(5#5, 0x00000000#32), (6#5, 0x00000001#32)] [] 0x406283B3#32)
      (changed [(7#5, 0xFFFFFFFF#32)] [] 0x00000004#32 false (.retired) []) = true := by decide

/-- V-RR5. -/
theorem test_sub_most_negative :
    stepsTo (start false 0x00000000#32 [(6#5, 0x80000000#32)] [] 0x406003B3#32)
      (changed [(7#5, 0x80000000#32)] [] 0x00000004#32 false (.retired) []) = true := by decide

/-- V-RR6. -/
theorem test_sll_masked_count :
    stepsTo (start false 0x00000000#32 [(5#5, 0x00000001#32), (6#5, 0x00000025#32)] [] 0x006293B3#32)
      (changed [(7#5, 0x00000020#32)] [] 0x00000004#32 false (.retired) []) = true := by decide

/-- V-RR24. -/
theorem test_sll_funct7_unexamined :
    stepsTo (start false 0x00000000#32 [(1#5, 0x00000003#32), (2#5, 0x00000004#32)] [] 0x022090B3#32)
      (changed [(1#5, 0x00000030#32)] [] 0x00000004#32 false (.retired) []) = true := by decide

/-- V-RR10. -/
theorem test_slt_less :
    stepsTo (start false 0x00000000#32 [(5#5, 0xFFFFFFFF#32), (6#5, 0x00000001#32)] [] 0x0062A3B3#32)
      (changed [(7#5, 0x00000001#32)] [] 0x00000004#32 false (.retired) []) = true := by decide

/-- V-RR11. -/
theorem test_slt_not_less :
    stepsTo (start false 0x00000000#32 [(5#5, 0x7FFFFFFF#32), (6#5, 0x80000000#32)] [] 0x0062A3B3#32)
      (changed [(7#5, 0x00000000#32)] [] 0x00000004#32 false (.retired) []) = true := by decide

/-- V-RR12. -/
theorem test_sltu_not_less :
    stepsTo (start false 0x00000000#32 [(5#5, 0xFFFFFFFF#32), (6#5, 0x00000001#32)] [] 0x0062B3B3#32)
      (changed [(7#5, 0x00000000#32)] [] 0x00000004#32 false (.retired) []) = true := by decide

/-- V-RR14. -/
theorem test_sltu_less :
    stepsTo (start false 0x00000000#32 [(6#5, 0x00000009#32)] [] 0x006033B3#32)
      (changed [(7#5, 0x00000001#32)] [] 0x00000004#32 false (.retired) []) = true := by decide

/-- V-RR15. -/
theorem test_xor_bits :
    stepsTo (start false 0x00000000#32 [(5#5, 0xFF00FF00#32), (6#5, 0x0FF00FF0#32)] [] 0x0062C3B3#32)
      (changed [(7#5, 0xF0F0F0F0#32)] [] 0x00000004#32 false (.retired) []) = true := by decide

/-- V-RR16. -/
theorem test_srl_masked_count :
    stepsTo (start false 0x00000000#32 [(5#5, 0x80000000#32), (6#5, 0x00000025#32)] [] 0x0062D3B3#32)
      (changed [(7#5, 0x04000000#32)] [] 0x00000004#32 false (.retired) []) = true := by decide

/-- V-RR17. -/
theorem test_sra_masked_count :
    stepsTo (start false 0x00000000#32 [(5#5, 0x80000000#32), (6#5, 0x00000025#32)] [] 0x4062D3B3#32)
      (changed [(7#5, 0xFC000000#32)] [] 0x00000004#32 false (.retired) []) = true := by decide

/-- V-RR19. -/
theorem test_or_bits :
    stepsTo (start false 0x00000000#32 [(5#5, 0xF0F00000#32), (6#5, 0x0000F0F0#32)] [] 0x0062E3B3#32)
      (changed [(7#5, 0xF0F0F0F0#32)] [] 0x00000004#32 false (.retired) []) = true := by decide

/-- V-RR20. -/
theorem test_and_bits :
    stepsTo (start false 0x00000000#32 [(5#5, 0xF0F0F0F0#32), (6#5, 0x0FF00FF0#32)] [] 0x0062F3B3#32)
      (changed [(7#5, 0x00F000F0#32)] [] 0x00000004#32 false (.retired) []) = true := by decide

/-- V-RR27. -/
theorem test_and_funct7_unexamined :
    stepsTo (start false 0x00000000#32 [(5#5, 0xF0F0F0F0#32), (6#5, 0x0FF00FF0#32)] [] 0x4062F3B3#32)
      (changed [(7#5, 0x00F000F0#32)] [] 0x00000004#32 false (.retired) []) = true := by decide

/-- V-F1. -/
theorem test_fence_moves_pc :
    stepsTo (start false 0x00000030#32 [] [] 0x0FF0000F#32)
      (changed [] [] 0x00000034#32 false (.retired) []) = true := by decide

/-- V-F3. -/
theorem test_fence_funct3_unexamined :
    stepsTo (start false 0x00000030#32 [] [] 0x0000128F#32)
      (changed [] [] 0x00000034#32 false (.retired) []) = true := by decide

/-- V-Y1. -/
theorem test_ecall_halts :
    stepsTo (start false 0x00000018#32 [] [] 0x00000073#32)
      (changed [] [] 0x00000018#32 true (.halted .ecall) []) = true := by decide

/-- V-Y2. -/
theorem test_ebreak_halts :
    stepsTo (start false 0x00000018#32 [] [] 0x00100073#32)
      (changed [] [] 0x00000018#32 true (.halted .ebreak) []) = true := by decide

/-- V-Y5. -/
theorem test_csrrw_halts :
    stepsTo (start false 0x00000018#32 [(5#5, 0x00000001#32)] [] 0x34029073#32)
      (changed [] [] 0x00000018#32 true (.halted .illegalInstruction) []) = true := by decide

/-- V-Y6. -/
theorem test_csrrs_halts :
    stepsTo (start false 0x00000018#32 [] [] 0xC00022F3#32)
      (changed [] [] 0x00000018#32 true (.halted .illegalInstruction) []) = true := by decide

/-- V-Y7. -/
theorem test_csrrc_halts :
    stepsTo (start false 0x00000018#32 [(5#5, 0x00000008#32)] [] 0x3002B073#32)
      (changed [] [] 0x00000018#32 true (.halted .illegalInstruction) []) = true := by decide

/-- V-Y8. -/
theorem test_csrrwi_halts :
    stepsTo (start false 0x00000018#32 [] [] 0x3400D073#32)
      (changed [] [] 0x00000018#32 true (.halted .illegalInstruction) []) = true := by decide

/-- V-Y9. -/
theorem test_csrrsi_halts :
    stepsTo (start false 0x00000018#32 [] [] 0x30046073#32)
      (changed [] [] 0x00000018#32 true (.halted .illegalInstruction) []) = true := by decide

/-- V-Y10. -/
theorem test_csrrci_halts :
    stepsTo (start false 0x00000018#32 [] [] 0x30047073#32)
      (changed [] [] 0x00000018#32 true (.halted .illegalInstruction) []) = true := by decide

/-- V-Y14. -/
theorem test_illegal_zero_word :
    stepsTo (start false 0x00000018#32 [] [] 0x00000000#32)
      (changed [] [] 0x00000018#32 true (.halted .illegalInstruction) []) = true := by decide

/-- V-RR25. -/
theorem test_strict_illegal_funct7 :
    stepsTo (start true 0x00000000#32 [(1#5, 0x00000003#32), (2#5, 0x00000004#32)] [] 0x022090B3#32)
      (changed [] [] 0x00000000#32 true (.halted .illegalInstruction) []) = true := by decide

/-! ## Witnesses: states and operands that meet the hypotheses of the statements -/

/-- The n bytes at a are in range at reset, up to the last byte of the memory, and the bytes from 0x10000 are not. -/
def atStoreBounds (n : Nat) (a : Word) : Bool :=
  decide (Memory.wf State.reset.mem ∧ (∀ k, k < n → inRange (a + BitVec.ofNat 32 k) State.reset = true) ∧
    (a + BitVec.ofNat 32 n) = 0x10000#32 ∧
    (∀ k, k < n → inRange (0x10000#32 + BitVec.ofNat 32 k) State.reset = false) ∧
    (∀ k, k < n → 0x100#32 ≠ a + BitVec.ofNat 32 k))

theorem witness_LuiWritesUpperImmediate :
    0x123452B7#32 &&& 0x0000007F#32 = 0x00000037#32 ∧
    5#5 ≠ 0#5 ∧ 6#5 ≠ 5#5 := by decide

theorem witness_AuipcAddsPcAndImmediate :
    0x00001297#32 &&& 0x0000007F#32 = 0x00000017#32 ∧
    5#5 ≠ 0#5 ∧ 6#5 ≠ 5#5 := by decide

theorem witness_JalLinksAndJumps :
    0x010000EF#32 &&& 0x0000007F#32 = 0x0000006F#32 ∧
    5#5 ≠ 0#5 ∧ 6#5 ≠ 5#5 := by decide

theorem witness_JalrLinksAndJumps :
    0x004280E7#32 &&& 0x0000007F#32 = 0x00000067#32 ∧
    0x004280E7#32 &&& 0x0000707F#32 = 0x00000067#32 ∧
    5#5 ≠ 0#5 ∧ 6#5 ≠ 5#5 ∧ 0 < 1 ∧ 31 < 32 := by decide

theorem witness_BeqBneBranchOnEquality :
    0x00000463#32 &&& 0x0000707F#32 = 0x00000063#32 ∧
    0xFE029CE3#32 &&& 0x0000707F#32 = 0x00001063#32 := by decide

theorem witness_BltBgeBranchOnSignedOrder :
    0x0020C663#32 &&& 0x0000707F#32 = 0x00004063#32 ∧
    0x0020D663#32 &&& 0x0000707F#32 = 0x00005063#32 := by decide

theorem witness_BltuBgeuBranchOnUnsignedOrder :
    0x0020E663#32 &&& 0x0000707F#32 = 0x00006063#32 ∧
    0x0020F663#32 &&& 0x0000707F#32 = 0x00007063#32 := by decide

theorem witness_ByteLoadsExtendOneByte :
    0x00028303#32 &&& 0x0000707F#32 = 0x00000003#32 ∧
    0x0002C303#32 &&& 0x0000707F#32 = 0x00004003#32 ∧
    5#5 ≠ 0#5 ∧ 6#5 ≠ 5#5 := by decide

theorem witness_HalfLoadsExtendTwoBytes :
    0x00229303#32 &&& 0x0000707F#32 = 0x00001003#32 ∧
    0x0022D303#32 &&& 0x0000707F#32 = 0x00005003#32 ∧
    5#5 ≠ 0#5 ∧ 6#5 ≠ 5#5 := by decide

theorem witness_WordLoadReadsFourBytes :
    0x0002A303#32 &&& 0x0000707F#32 = 0x00002003#32 ∧
    5#5 ≠ 0#5 ∧ 6#5 ≠ 5#5 := by decide

theorem witness_StoreByteWritesOneByte :
    0x00628023#32 &&& 0x0000707F#32 = 0x00000023#32 ∧
    atStoreBounds 1 0xFFFF#32 = true := by decide

theorem witness_StoreHalfWritesTwoBytes :
    0x00629123#32 &&& 0x0000707F#32 = 0x00001023#32 ∧
    atStoreBounds 2 0xFFFE#32 = true := by decide

theorem witness_StoreWordWritesFourBytes :
    0xFE62AE23#32 &&& 0x0000707F#32 = 0x00002023#32 ∧
    atStoreBounds 4 0xFFFC#32 = true := by decide

theorem witness_AddiAddsImmediate :
    0x00500093#32 &&& 0x0000707F#32 = 0x00000013#32 ∧
    5#5 ≠ 0#5 ∧ 6#5 ≠ 5#5 := by decide

theorem witness_SltiSltiuCompareWithImmediate :
    0xFFF2A313#32 &&& 0x0000707F#32 = 0x00002013#32 ∧
    0xFFF2B313#32 &&& 0x0000707F#32 = 0x00003013#32 ∧
    5#5 ≠ 0#5 ∧ 6#5 ≠ 5#5 := by decide

theorem witness_XoriOriAndiAreBitwise :
    0xFFF2C313#32 &&& 0x0000707F#32 = 0x00004013#32 ∧
    0x0F02E313#32 &&& 0x0000707F#32 = 0x00006013#32 ∧
    0x0FF2F313#32 &&& 0x0000707F#32 = 0x00007013#32 ∧
    5#5 ≠ 0#5 ∧ 6#5 ≠ 5#5 := by decide

theorem witness_SlliShiftsLeft :
    0x00429313#32 &&& 0x0000707F#32 = 0x00001013#32 ∧
    0x00429313#32 &&& 0xFE00707F#32 = 0x00001013#32 ∧
    5#5 ≠ 0#5 ∧ 6#5 ≠ 5#5 := by decide

theorem witness_SrliSraiShiftRight :
    0x0042D313#32 &&& 0xFE00707F#32 = 0x00005013#32 ∧
    0x4042D313#32 &&& 0xFE00707F#32 = 0x40005013#32 ∧
    5#5 ≠ 0#5 ∧ 6#5 ≠ 5#5 := by decide

theorem witness_AddSubWrap :
    0x006283B3#32 &&& 0xFE00707F#32 = 0x00000033#32 ∧
    0x406283B3#32 &&& 0xFE00707F#32 = 0x40000033#32 ∧
    5#5 ≠ 0#5 ∧ 6#5 ≠ 5#5 := by decide

theorem witness_SrlSraUseFiveBitCounts :
    0x0062D3B3#32 &&& 0xFE00707F#32 = 0x00005033#32 ∧
    0x4062D3B3#32 &&& 0xFE00707F#32 = 0x40005033#32 ∧
    5#5 ≠ 0#5 ∧ 6#5 ≠ 5#5 := by decide

theorem witness_SllSltSltuCompute :
    0x006293B3#32 &&& 0x0000707F#32 = 0x00001033#32 ∧
    0x006293B3#32 &&& 0xFE00707F#32 = 0x00001033#32 ∧
    0x0062A3B3#32 &&& 0x0000707F#32 = 0x00002033#32 ∧
    0x0062A3B3#32 &&& 0xFE00707F#32 = 0x00002033#32 ∧
    0x0062B3B3#32 &&& 0x0000707F#32 = 0x00003033#32 ∧
    0x0062B3B3#32 &&& 0xFE00707F#32 = 0x00003033#32 ∧
    5#5 ≠ 0#5 ∧ 6#5 ≠ 5#5 := by decide

theorem witness_XorOrAndAreBitwise :
    0x0062C3B3#32 &&& 0x0000707F#32 = 0x00004033#32 ∧
    0x0062C3B3#32 &&& 0xFE00707F#32 = 0x00004033#32 ∧
    0x0062E3B3#32 &&& 0x0000707F#32 = 0x00006033#32 ∧
    0x0062E3B3#32 &&& 0xFE00707F#32 = 0x00006033#32 ∧
    0x0062F3B3#32 &&& 0x0000707F#32 = 0x00007033#32 ∧
    0x0062F3B3#32 &&& 0xFE00707F#32 = 0x00007033#32 ∧
    5#5 ≠ 0#5 ∧ 6#5 ≠ 5#5 := by decide

theorem witness_FenceOnlyAdvancesPc :
    0x0FF0000F#32 &&& 0x0000007F#32 = 0x0000000F#32 ∧
    0x0FF0000F#32 &&& 0x0000707F#32 = 0x0000000F#32 := by decide

theorem witness_CsrFormsHaltAsIllegal :
    0x34029073#32 &&& 0x0000707F#32 = 0x00001073#32 ∧
    0xC00022F3#32 &&& 0x0000707F#32 = 0x00002073#32 ∧
    0x3002B073#32 &&& 0x0000707F#32 = 0x00003073#32 ∧
    0x3400D073#32 &&& 0x0000707F#32 = 0x00005073#32 ∧
    0x30046073#32 &&& 0x0000707F#32 = 0x00006073#32 ∧
    0x30047073#32 &&& 0x0000707F#32 = 0x00007073#32 ∧
    csrForm (.csrrw 0#5 0x340#12 5#5) = true ∧ csrForm (.csrrci 0#5 0x300#12 8#5) = true := by decide

theorem witness_RegisterWriteReadsBack : (1#5 : Reg) ≠ 0#5 ∧ (31#5 : Reg) ≠ 0#5 ∧ (2#5 : Reg) ≠ 1#5 := by decide

theorem witness_ByteAccessesAreBoundsChecked :
    (0xFFFF#32 : Word).toNat < State.reset.cfg.memSize ∧ State.reset.cfg.memSize ≤ (0x10000#32 : Word).toNat ∧
    Memory.wf State.reset.mem ∧ 0 ≠ (0xFFFF#32 : Word).toNat := by decide

theorem witness_WideWritesPutInRangeBytes :
    Memory.wf State.reset.mem ∧
    (∀ k, k < 4 → ((0xFFFC#32 : Word) + BitVec.ofNat 32 k).toNat < State.reset.cfg.memSize) ∧
    (∀ k, k < 2 → ((0xFFFE#32 : Word) + BitVec.ofNat 32 k).toNat < State.reset.cfg.memSize) := by decide

theorem witness_MixedWidthAccessesAgree :
    Memory.wf State.reset.mem ∧
    (∀ k, k < 4 → ((0xFFFC#32 : Word) + BitVec.ofNat 32 k).toNat < State.reset.cfg.memSize) := by decide

theorem witness_AccessWarnsOncePerByteInOrder :
    (∀ k, k < Width.word.bytes → State.reset.cfg.memSize ≤ ((0x10000#32 : Word) + BitVec.ofNat 32 k).toNat) ∧
    (∀ k, k < Width.word.bytes → State.reset.cfg.memSize ≤ ((0xFFFFFFFC#32 : Word) + BitVec.ofNat 32 k).toNat) := by
  decide

theorem witness_LoadsAndStoresEmitTheirWarnings :
    (∃ t, exec (.lb 6#5 5#5 0#32) State.reset = .next t) ∧ (∃ t, exec (.lbu 6#5 5#5 0#32) State.reset = .next t) ∧
    (∃ t, exec (.lh 6#5 5#5 0#32) State.reset = .next t) ∧ (∃ t, exec (.lhu 6#5 5#5 0#32) State.reset = .next t) ∧
    (∃ t, exec (.lw 6#5 5#5 0#32) State.reset = .next t) ∧ (∃ t, exec (.sb 5#5 6#5 0#32) State.reset = .next t) ∧
    (∃ t, exec (.sh 5#5 6#5 0#32) State.reset = .next t) ∧ (∃ t, exec (.sw 5#5 6#5 0#32) State.reset = .next t) :=
  ⟨⟨_, rfl⟩, ⟨_, rfl⟩, ⟨_, rfl⟩, ⟨_, rfl⟩, ⟨_, rfl⟩, ⟨_, rfl⟩, ⟨_, rfl⟩, ⟨_, rfl⟩⟩

theorem witness_ImmediatesAreTheFormatsBits : 0 < 32 ∧ 31 < 32 := by decide

theorem witness_DecodeOfEncodeIsIdentity :
    (Instr.jal 31#5 (-1048576)).wellFormed = true ∧ (Instr.bgeu 31#5 1#5 4094#32).wellFormed = true ∧
    (Instr.sw 31#5 1#5 (-2048)).wellFormed = true ∧ (Instr.auipc 31#5 0xFFFFF000#32).wellFormed = true ∧
    (Instr.ecall).wellFormed = true := by decide

theorem witness_StrictDecodeInvertsEncode :
    decode true 0x123452B7#32 = .ok (.lui 5#5 0x12345000#32) ∧ (Instr.lui 5#5 0x12345000#32).wellFormed = true ∧
    encode (.lui 5#5 0x12345000#32) = 0x123452B7#32 := by decide

/-- Both sides of the statement occur: at reset the word is illegal; a placed ADDI retires. -/
theorem witness_IllegalSpaceHalts :
    State.reset.halted = false ∧ IllegalWord State.reset.cfg.strictDecode (peek32 State.reset.pc State.reset) ∧
    (placeWord 0x00500093#32 State.reset).halted = false ∧
    stepsTo (placeWord 0x00500093#32 State.reset) (changed [(1#5, 5#32)] [] 4#32 false .retired []) = true :=
  ⟨rfl, .inl (by decide), rfl, by decide⟩

/-- A step that halts by each cause and one that does not. -/
theorem witness_HaltCausesAreClosed :
    stepsTo State.reset (changed [] [] 0#32 true (.halted .illegalInstruction) []) = true ∧
    stepsTo (placeWord 0x00100073#32 State.reset) (changed [] [] 0#32 true (.halted .ebreak) []) = true ∧
    stepsTo (placeWord 0x00000073#32 State.reset) (changed [] [] 0#32 true (.halted .ecall) []) = true ∧
    stepsTo (placeWord 0x0000000F#32 State.reset) (changed [] [] 4#32 false .retired []) = true := by decide

theorem witness_HaltingStepChangesNothingElse :
    State.reset.halted = false ∧ ∃ t, step State.reset = .next t ∧ t.halted = true := ⟨rfl, _, rfl, rfl⟩

theorem witness_StepRunsDecodedInstruction :
    let s := placeWord 0x00500093#32 State.reset
    s.halted = false ∧
    decode s.cfg.strictDecode
      (peek8 (s.pc + 3#32) s ++ peek8 (s.pc + 2#32) s ++ peek8 (s.pc + 1#32) s ++ peek8 s.pc s)
      = .ok (.addi 1#5 0#5 5#32) := by decide

theorem witness_UndecodableWordHaltsAsIllegal :
    State.reset.halted = false ∧
    decode State.reset.cfg.strictDecode (peek32 State.reset.pc State.reset) = .error .unknownOpcode := by decide

theorem witness_HaltedStepIsIdle : (raiseHalt .ebreak State.reset).halted = true := rfl

theorem witness_EveryRunningStepCountsOnce :
    State.reset.halted = false ∧ ∃ t, step State.reset = .next t := ⟨rfl, _, rfl⟩

theorem witness_StepWritesAtMostOneRegister : ∃ t, step (placeWord 0x00500093#32 State.reset) = .next t := ⟨_, rfl⟩

theorem witness_StepKeepsParametersAndHalted :
    (∃ t, step State.reset = .next t) ∧
    ∃ t, step (raiseHalt .ebreak State.reset) = .next t ∧ (raiseHalt .ebreak State.reset).halted = true :=
  ⟨⟨_, rfl⟩, _, rfl, rfl⟩

theorem witness_StepKeepsMachineInvariant : State.reset.Inv ∧ ∃ t, step State.reset = .next t :=
  ⟨⟨by decide, by decide, by decide, by decide⟩, _, rfl⟩

theorem witness_BootOperationsKeepInvariant :
    State.reset.Inv ∧ (∃ s, construct { memSizeReq := 16 } = some s) ∧
    ∃ t, loadImage (List.replicate 16 0x13#8) { State.reset with cfg := { memSizeReq := 16 } } = some t :=
  ⟨⟨by decide, by decide, by decide, by decide⟩, ⟨_, rfl⟩, _, rfl⟩

theorem witness_ResetRestoresEngineAndKeepsMemory : (1#5 : Reg) ≠ 0#5 ∧ (31#5 : Reg) ≠ 0#5 := by decide

theorem witness_StartRunLoadsCapacity :
    State.reset.cfg.legal ∧ ({ memSizeReq := 16 } : Config).legal ∧ ({ memSizeReq := 0xFFFFFFF0 } : Config).legal ∧
    (1#5 : Reg) ≠ 2#5 := by decide

/-- The capacities at both ends, and the last byte and word of the smallest memory. -/
theorem witness_ConstructionRoundsAndFills :
    (construct { memSizeReq := 16 }).isSome = true ∧ (construct { memSizeReq := 0xFFFFFFF0 }).isSome = true ∧
    ({ memSizeReq := 0 } : Config).memSize < 16 ∧ 0xFFFFFFF0 < ({ memSizeReq := 0xFFFFFFF1 } : Config).memSize ∧
    (15#32 : Word).toNat < ({ memSizeReq := 16 } : Config).memSize ∧
    ∀ k, k < 4 → ((12#32 : Word) + BitVec.ofNat 32 k).toNat < ({ memSizeReq := 16 } : Config).memSize := by decide

/-- An image as long as the memory, and one byte longer. -/
theorem witness_ImageLoadCopiesExactlyTheImage :
    let s := { State.reset with cfg := { memSizeReq := 16 } }
    (List.replicate 16 0x13#8).length ≤ s.cfg.memSize ∧ s.cfg.memSize < (List.replicate 17 0x13#8).length ∧
    Memory.wf s.mem ∧ 15 < (List.replicate 16 0x13#8).length ∧ (List.replicate 15 0x13#8).length ≤ 15 := by decide

/-- A limit of 0 with no step left to take, and one of 5. -/
theorem witness_RunWithLimitEndsAtHaltOrLimit :
    let s := { State.reset with cfg := { insnLimit := some 0 } }
    let u := { State.reset with cfg := { insnLimit := some 5 } }
    (s.cfg.insnLimit = some 0 ∧ s.insnCount ≤ 0 ∧ 0 ≤ s.insnCount + 0) ∧
    (u.cfg.insnLimit = some 5 ∧ u.insnCount ≤ 5 ∧ 5 ≤ u.insnCount + 5) := by decide

theorem witness_RunEndsOnlyByHaltOrLimit :
    (∃ t es, run 1 State.reset = .ended t es) ∧
    ∃ t es, run 0 { State.reset with cfg := { insnLimit := some 0 } } = .ended t es := ⟨⟨_, _, rfl⟩, _, _, rfl⟩

/-- A store to the last word of the memory. -/
theorem witness_NextFetchSeesStoredWord :
    let s := setReg 5#5 0xFFFC#32 State.reset
    Memory.wf s.mem ∧ (∀ k, k < 4 → (effAddr 5#5 0#32 s + BitVec.ofNat 32 k).toNat < s.cfg.memSize) ∧
    ∃ t, exec (.sw 5#5 6#5 0#32) s = .next t ∧
      ∃ u : State, u.mem = t.mem ∧ u.cfg = t.cfg ∧ u.pc = effAddr 5#5 0#32 s :=
  ⟨by decide, by decide, _, rfl, { State.reset with mem := _, cfg := _, pc := _ }, rfl, rfl, rfl⟩

/-- The first and the last pc of the range. -/
theorem witness_PcOutsideMemoryHalts :
    State.reset.halted = false ∧ State.reset.cfg.memSize ≤ (0x10000#32 : Word).toNat ∧
    (0x10000#32 : Word).toNat ≤ 0xFFFFFFFC ∧ State.reset.cfg.memSize ≤ (0xFFFFFFFC#32 : Word).toNat ∧
    (0xFFFFFFFC#32 : Word).toNat ≤ 0xFFFFFFFC := by decide

/-- Unwritten memory at the reset pc and at its last word. -/
theorem witness_UnwrittenMemoryHalts :
    State.reset.halted = false ∧
    (∀ k, k < 4 → (State.reset.pc + BitVec.ofNat 32 k).toNat < State.reset.cfg.memSize) ∧
    (∀ k, k < 4 → readCell (State.reset.pc + BitVec.ofNat 32 k).toNat State.reset.mem = 0xA5#8) ∧
    (∀ k, k < 4 → ((0xFFFC#32 : Word) + BitVec.ofNat 32 k).toNat < State.reset.cfg.memSize) ∧
    (∀ k, k < 4 → readCell ((0xFFFC#32 : Word) + BitVec.ofNat 32 k).toNat State.reset.mem = 0xA5#8) := by decide

end Sys2Proof.Machine
end

section
/-! PROOFS. The statements about the state of the core: the machine's invariant, the parameters and the halted flag,
and the register file (10_state.md). -/

namespace Sys2Proof.Machine

/-! ## The invariant under each update of the state -/

/-- The invariant reads only the memory, the parameters, the registers and the pc. -/
theorem State.Inv.congr {s t : State} (h : s.Inv) (hm : t.mem = s.mem) (hc : t.cfg = s.cfg) (hx : t.x = s.x)
    (hp : t.pc = s.pc) : t.Inv where
  memory := by rw [hm]; exact h.memory
  within := by rw [hm, hc]; exact h.within
  zero := by simpa only [hx] using h.zero
  evenPc := by rw [hp]; exact h.evenPc

theorem idle_inv {s : State} (h : s.Inv) : (idle s).Inv := h.congr rfl rfl rfl rfl

theorem raiseHalt_inv (c : HaltCause) {s : State} (h : s.Inv) : (raiseHalt c s).Inv := h.congr rfl rfl rfl rfl

theorem addEvents_inv (es : List Event) {s : State} (h : s.Inv) : (addEvents es s).Inv := h.congr rfl rfl rfl rfl

theorem fetched_inv {s : State} (h : s.Inv) : (fetched s).Inv := h.congr rfl rfl rfl rfl

theorem setReg_inv (r : Reg) (v : Word) {s : State} (h : s.Inv) : (setReg r v s).Inv where
  memory := by rw [setReg_mem]; exact h.memory
  within := by rw [setReg_mem, setReg_cfg]; exact h.within
  zero := (setReg_slot_zero r v s).trans h.zero
  evenPc := by rw [setReg_pc]; exact h.evenPc

theorem memWrite_inv (n : Width) (a v : Word) {s : State} (h : s.Inv) : (memWrite n a v s).Inv where
  memory := memWrite_wf n a v h.memory
  within := by rw [memWrite_cfg]; exact memWrite_within n a v h.within
  zero := by simpa only [memWrite_x] using h.zero
  evenPc := by rw [memWrite_pc]; exact h.evenPc

/-- Retiring keeps the invariant when the new pc is even. -/
theorem commitPc_inv {target : Word} (even : target.getLsbD 0 = false) {s : State} (h : s.Inv) :
    (commitPc target s).Inv where
  memory := h.memory
  within := h.within
  zero := h.zero
  evenPc := even

/-! ## What every instruction keeps, shape by shape -/

/-- An instruction that an encoding can carry keeps the invariant: its target is even because its immediate is. -/
theorem Effect.inv {i : Instr} {s t : State} (he : Effect i s t) (hw : i.wellFormed = true) (h : s.Inv) : t.Inv := by
  cases he with
  | register rd v target es even => exact commitPc_inv (even hw h.evenPc) (setReg_inv rd v (addEvents_inv es h))
  | transfer target even => exact commitPc_inv (even hw h.evenPc) h
  | store n a v => exact commitPc_inv (nextPc_even h.evenPc) (memWrite_inv n a v h)
  | halt c => exact raiseHalt_inv c h

/-- No instruction changes a parameter (log entry 1). -/
theorem Effect.cfg_eq {i : Instr} {s t : State} (he : Effect i s t) : t.cfg = s.cfg := by
  cases he with
  | register rd v target es even => rw [commitReg_cfg, addEvents_cfg]
  | transfer target even => rfl
  | store n a v => rw [commitPc_cfg, memWrite_cfg]
  | halt c => rfl

/-! ## What every step keeps -/

theorem step_inv {s t : State} (h : s.Inv) (hst : step s = .next t) : t.Inv := by
  obtain ⟨-, rfl⟩ | ⟨-, e, -, rfl⟩ | ⟨-, i, hd, he, -⟩ := step_cases hst
  · exact idle_inv h
  · exact raiseHalt_inv .illegalInstruction (fetched_inv h)
  · exact he.inv (decode_wellFormed hd) (fetched_inv h)

theorem step_cfg {s t : State} (hst : step s = .next t) : t.cfg = s.cfg := by
  obtain ⟨-, rfl⟩ | ⟨-, e, -, rfl⟩ | ⟨-, i, -, he, -⟩ := step_cases hst
  · rfl
  · rfl
  · exact he.cfg_eq

/-- Settles O48: the four shapes of a handler each keep the invariant, and the decoder gives only even branch and
JAL immediates. -/
theorem stepKeepsMachineInvariant : Obligations.StepKeepsMachineInvariant :=
  fun _ _ h hst => step_inv h hst

/-- Settles O47: no shape of a handler writes the parameters, and a step from a halted core is `idle`. -/
theorem stepKeepsParametersAndHalted : Obligations.StepKeepsParametersAndHalted := by
  intro s t hst
  refine ⟨step_cfg hst, fun hh => ?_⟩
  have ht : idle s = t := by simpa only [step_of_halted hh, Host.Outcome.next.injEq] using hst
  rw [← ht, idle_halted, hh]

/-! ## Register writes -/

/-- A register write changes the register file alone. -/
theorem setReg_frame (r : Reg) (v : Word) (s : State) : setReg r v s = { s with x := (setReg r v s).x } := by
  unfold setReg
  split <;> rfl

/-- Settles O26: register 0 by the laws `getReg_zero` and `setReg_zero`, the others by the read-back laws and the
frame of the write. -/
theorem registerWriteReadsBack : Obligations.RegisterWriteReadsBack :=
  ⟨getReg_zero, setReg_zero, fun r v s hr =>
    ⟨getReg_setReg_same hr v s, fun _ hq => getReg_setReg_other hq v s, setReg_frame r v s⟩⟩

end Sys2Proof.Machine
end

section
/-! PROOFS. The statements about the interfaces of the core: the operations that start a run keep the machine's
invariant (15_interfaces.md R41), and the warnings of the loads and stores (R43). -/

namespace Sys2Proof.Machine

/-! ## The invariant under the operations that start a run -/

/-- A constructed state is the reset state with its parameters. -/
theorem construct_eq_some {c : Config} {s : State} (h : construct c = some s) :
    c.legal ∧ s = { State.reset with cfg := c } := by
  unfold construct at h
  split at h
  · next hc => exact ⟨hc, (Option.some.inj h).symm⟩
  · cases h

/-- A loaded image fits the memory, and only the memory has changed. -/
theorem loadImage_eq_some {image : List Byte} {s t : State} (h : loadImage image s = some t) :
    image.length ≤ s.cfg.memSize ∧ t = { s with mem := writeCells imageBase image s.mem } := by
  unfold loadImage at h
  split at h
  · next hl => exact ⟨hl, (Option.some.inj h).symm⟩
  · cases h

/-- Execution starts at an even pc (10_state.md R26). -/
theorem pcReset_even : pcReset.getLsbD 0 = false := by decide

theorem construct_inv {c : Config} {s : State} (h : construct c = some s) : s.Inv := by
  obtain ⟨-, rfl⟩ := construct_eq_some h
  exact { memory := reset_mem_wf, within := List.forall_mem_nil _, zero := rfl, evenPc := pcReset_even }

/-- Reset keeps the memory and the capacity; the registers and the pc take constant values that meet the invariant. -/
theorem resetEngine_inv {s : State} (h : s.Inv) : (resetEngine s).Inv where
  memory := h.memory
  within := h.within
  zero := rfl
  evenPc := pcReset_even

theorem startRun_inv {s : State} (h : s.Inv) : (startRun s).Inv := setReg_inv _ _ h

/-- The image starts at address 0 and is no longer than the memory, so it lists only cells of the array. -/
theorem loadImage_inv {image : List Byte} {s t : State} (h : s.Inv) (hl : loadImage image s = some t) : t.Inv := by
  obtain ⟨fits, rfl⟩ := loadImage_eq_some hl
  have inside : imageBase + image.length ≤ s.cfg.memSize := (Nat.zero_add _).trans_le fits
  exact
    { memory := writeCells_wf imageBase image h.memory
      within := writeCells_within image inside h.within
      zero := h.zero
      evenPc := h.evenPc }

/-- Settles O50: one lemma for each operation of R41. -/
theorem bootOperationsKeepInvariant : Obligations.BootOperationsKeepInvariant :=
  ⟨fun _ _ hc => construct_inv hc, fun _ h =>
    ⟨resetEngine_inv h, startRun_inv h, fun _ _ hl => loadImage_inv h hl⟩⟩

/-! ## The warnings of the loads and stores -/

@[simp] theorem loadWith_events (n : Width) (extend : Word → Word) (rd rs1 : Reg) (imm : Word) (s : State) :
    (loadWith n extend rd rs1 imm s).events = s.events ++ accessEvents n (effAddr rs1 imm s) s := by
  rw [loadWith_spec, commitReg_events, addEvents_events]

@[simp] theorem storeWith_events (n : Width) (rs1 rs2 : Reg) (imm : Word) (s : State) :
    (storeWith n rs1 rs2 imm s).events = s.events ++ accessEvents n (effAddr rs1 imm s) s := by
  rw [storeWith_spec, commitPc_events, memWrite_events]

/-- `exec` answers one state, so what is known of the warnings of its answer holds of any next state it gives. -/
theorem events_of_answer {i : Instr} {s t u : State} {es : List Event} (answer : exec i s = .next u)
    (events : u.events = es) (h : exec i s = .next t) : t.events = es := by
  have hut : u = t := Host.Outcome.next.inj (answer.symm.trans h)
  rw [← hut, events]

/-- Settles O32: each of the eight forms is `loadWith` or `storeWith` at its width. -/
theorem loadsAndStoresEmitTheirWarnings : Obligations.LoadsAndStoresEmitTheirWarnings := by
  rintro rd rs1 rs2 imm s t n
    (⟨rfl, lb⟩ | ⟨rfl, lbu⟩ | ⟨rfl, lh⟩ | ⟨rfl, lhu⟩ | ⟨rfl, lw⟩ | ⟨rfl, sb⟩ | ⟨rfl, sh⟩ | ⟨rfl, sw⟩)
  · exact events_of_answer rfl (loadWith_events .byte (sext 8) rd rs1 imm s) lb
  · exact events_of_answer rfl (loadWith_events .byte (zext 8) rd rs1 imm s) lbu
  · exact events_of_answer rfl (loadWith_events .half (sext 16) rd rs1 imm s) lh
  · exact events_of_answer rfl (loadWith_events .half (zext 16) rd rs1 imm s) lhu
  · exact events_of_answer rfl (loadWith_events .word id rd rs1 imm s) lw
  · exact events_of_answer rfl (storeWith_events .byte rs1 rs2 imm s) sb
  · exact events_of_answer rfl (storeWith_events .half rs1 rs2 imm s) sh
  · exact events_of_answer rfl (storeWith_events .word rs1 rs2 imm s) sw

end Sys2Proof.Machine
end

section
/-! PROOFS. The statements about the memory (20_memory.md): byte accesses are bounds-checked, wide accesses are their
bytes in little-endian order, each out-of-range byte warns once, and what construction and a store leave to be read. -/

namespace Sys2Proof.Machine

/-! ## One byte, in range and out of range (R62, R64, R65) -/

theorem inRange_iff (a : Word) (s : State) : inRange a s = true ↔ a.toNat < s.cfg.memSize := decide_eq_true_iff

theorem inRange_eq_false_iff (a : Word) (s : State) : inRange a s = false ↔ s.cfg.memSize ≤ a.toNat :=
  decide_eq_false_iff_not.trans Nat.not_lt

theorem peek8_of_lt {a : Word} {s : State} (h : a.toNat < s.cfg.memSize) : peek8 a s = readCell a.toNat s.mem :=
  if_pos ((inRange_iff a s).mpr h)

theorem read8_of_lt {a : Word} {s : State} (h : a.toNat < s.cfg.memSize) : read8 a s = (readCell a.toNat s.mem, s) :=
  if_pos ((inRange_iff a s).mpr h)

theorem read8_of_le {a : Word} {s : State} (h : s.cfg.memSize ≤ a.toNat) : read8 a s = (0x00#8, warn a s) := by
  rw [read8, (inRange_eq_false_iff a s).mpr h, if_neg Bool.false_ne_true]

theorem write8_of_lt {a : Word} {s : State} (h : a.toNat < s.cfg.memSize) (v : Byte) :
    write8 a v s = { s with mem := writeCell a.toNat v s.mem } :=
  if_pos ((inRange_iff a s).mpr h)

theorem write8_of_le {a : Word} {s : State} (h : s.cfg.memSize ≤ a.toNat) (v : Byte) : write8 a v s = warn a s := by
  rw [write8, (inRange_eq_false_iff a s).mpr h, if_neg Bool.false_ne_true]

/-- Settles O27: each access has one equation in range and one out of range; the cells are those of `writeCell`. -/
theorem byteAccessesAreBoundsChecked : Obligations.ByteAccessesAreBoundsChecked := by
  refine fun a s => ⟨read8_of_lt, read8_of_le, fun v => ⟨fun h => ?_, fun h => write8_of_le h v⟩⟩
  rw [write8_of_lt h]
  exact ⟨rfl, readCell_writeCell_same a.toNat v, fun b hb => readCell_writeCell_other hb.symm v s.mem⟩

/-- Settles O28: by the laws of the reads each value is made of the bytes `peek8` gives, and the state after a read is
`addEvents` of the state before it. -/
theorem wideReadsComposeBytes : Obligations.WideReadsComposeBytes := by
  refine fun a s => ⟨?_, ?_, ?_, ?_⟩
  · rw [read16_spec, read8_spec, read8_spec]
  · simp only [read32_spec, read8_spec, peek32, wordOfBytes]
  · rw [read16_spec, addEvents]
  · rw [read32_spec, addEvents]

/-! ## A value is its bytes (R63) -/

/-- Two words with the same four bytes are equal. -/
theorem word_ext {v w : Word} (h : ∀ k, k < 4 → byteOfWord v k = byteOfWord w k) : v = w := by
  apply BitVec.eq_of_getLsbD_eq
  intro i hi
  have hbit := congrArg (·.getLsbD (i % 8)) (h (i / 8) (by omega))
  have hlow : i % 8 < 8 := Nat.mod_lt i (by decide)
  simpa only [byteOfWord, BitVec.getLsbD_extractLsb', hlow, decide_true, Bool.true_and, Nat.div_add_mod] using hbit

/-- The word at a is v when each of its four bytes is that of v. -/
theorem peek32_eq_of_bytes {a v : Word} {s : State}
    (h : ∀ k, k < 4 → peek8 (a + BitVec.ofNat 32 k) s = byteOfWord v k) : peek32 a s = v :=
  word_ext fun k hk => (byteOfWord_peek32 a s hk).trans (h k hk)

/-- The halfword at a is bits 8k+15 to 8k of v when its two bytes are bytes k and k + 1 of v. -/
theorem read16_eq_of_bytes {a v : Word} {s : State} {k : Nat} (lo : peek8 a s = byteOfWord v k)
    (hi : peek8 (a + 1#32) s = byteOfWord v (k + 1)) : (read16 a s).1 = v.extractLsb' (8 * k) 16 := by
  rw [read16_spec, lo, hi]
  exact BitVec.extractLsb'_append_extractLsb'_eq_extractLsb' (by omega)

/-- A halfword write is MemWrite of the halfword's value. -/
theorem write16_eq_memWrite (a : Word) (v : Half) (s : State) : write16 a v s = memWrite .half a (v.setWidth 32) s := by
  rw [memWrite, BitVec.extractLsb'_setWidth_of_le (by decide), BitVec.extractLsb'_eq_self]

theorem byteOfWord_half (v : Half) {k : Nat} (hk : k < 2) : byteOfWord (v.setWidth 32) k = v.extractLsb' (8 * k) 8 :=
  BitVec.extractLsb'_setWidth_of_le (by omega)

/-! ## What a write leaves to be read (R69, R72) -/

theorem Width.bytes_le_four (n : Width) : n.bytes ≤ 4 := by cases n <;> decide

section
variable (n : Width) {a b v : Word} {s : State}

/-- The byte at offset k of a write, when it is in range, is byte k of the value. -/
theorem peek8_memWrite_at {k : Nat} (hw : Memory.wf s.mem) (hk : k < n.bytes) (hb : b = a + BitVec.ofNat 32 k)
    (hr : b.toNat < s.cfg.memSize) : peek8 b (memWrite n a v s) = byteOfWord v k := by
  have offset : (b - a).toNat = k := by
    rw [(eq_add_iff a b _).mp hb, BitVec.toNat_ofNat]
    have := n.bytes_le_four
    omega
  rw [peek8_memWrite n b a v hw, offset, if_pos ⟨(inRange_iff b s).mpr hr, hk⟩]

/-- A byte that is at no offset of a write, or is out of range, reads as before. -/
theorem peek8_memWrite_other (hw : Memory.wf s.mem)
    (h : b.toNat < s.cfg.memSize → ∀ k, k < n.bytes → b ≠ a + BitVec.ofNat 32 k) :
    peek8 b (memWrite n a v s) = peek8 b s := by
  rw [peek8_memWrite n b a v hw, if_neg]
  rintro ⟨hr, hk⟩
  refine h ((inRange_iff b s).mp hr) _ hk ((eq_add_iff a b _).mpr ?_)
  rw [BitVec.ofNat_toNat, BitVec.setWidth_eq]

end

/-- After a write of a word whose bytes are all in range, the byte at offset k is byte k of the word. -/
theorem peek8_write32_at {a v : Word} {s : State} (hw : Memory.wf s.mem)
    (hr : ∀ k, k < 4 → (a + BitVec.ofNat 32 k).toNat < s.cfg.memSize) {k : Nat} (hk : k < 4) :
    peek8 (a + BitVec.ofNat 32 k) (write32 a v s) = byteOfWord v k :=
  peek8_memWrite_at .word hw hk rfl (hr k hk)

/-- A word written with all its bytes in range is the word then found there. -/
theorem peek32_write32 {a v : Word} {s : State} (hw : Memory.wf s.mem)
    (hr : ∀ k, k < 4 → (a + BitVec.ofNat 32 k).toNat < s.cfg.memSize) : peek32 a (write32 a v s) = v :=
  peek32_eq_of_bytes fun _ hk => peek8_write32_at hw hr hk

theorem read16_write16 {a : Word} {v : Half} {s : State} (hw : Memory.wf s.mem)
    (hr : ∀ k, k < 2 → (a + BitVec.ofNat 32 k).toNat < s.cfg.memSize) : (read16 a (write16 a v s)).1 = v := by
  rw [write16_eq_memWrite]
  have value := read16_eq_of_bytes (k := 0)
    (peek8_memWrite_at .half (v := v.setWidth 32) hw (by decide) (BitVec.add_zero a).symm
      (by simpa using hr 0 (by decide)))
    (peek8_memWrite_at .half hw (by decide) rfl (hr 1 (by decide)))
  rw [value, BitVec.extractLsb'_setWidth_of_le (by decide), BitVec.extractLsb'_eq_self]

/-- Every byte after a halfword write: the two in-range bytes of the access, and the rest. -/
theorem peek8_write16 {s : State} (hw : Memory.wf s.mem) (a : Word) (v : Half) (b : Word) :
    peek8 b (write16 a v s) =
      if b.toNat < s.cfg.memSize ∧ b = a then v.extractLsb' 0 8
      else if b.toNat < s.cfg.memSize ∧ b = a + 1#32 then v.extractLsb' 8 8 else peek8 b s := by
  rw [write16_eq_memWrite]
  split_ifs with h0 h1
  · rw [peek8_memWrite_at .half (k := 0) hw (by decide) (by simpa using h0.2) h0.1, byteOfWord_half v (by decide)]
  · rw [peek8_memWrite_at .half (k := 1) hw (by decide) h1.2 h1.1, byteOfWord_half v (by decide)]
  · refine peek8_memWrite_other .half hw fun hr k hk e => ?_
    obtain rfl | rfl : k = 0 ∨ k = 1 := by simp only [Width.bytes] at hk; omega
    · exact h0 ⟨hr, by simpa using e⟩
    · exact h1 ⟨hr, e⟩

/-- Every byte after a word write: the four in-range bytes of the access, and the rest. -/
theorem peek8_write32 {s : State} (hw : Memory.wf s.mem) (a v b : Word) :
    peek8 b (write32 a v s) =
      if b.toNat < s.cfg.memSize ∧ b = a then v.extractLsb' 0 8
      else if b.toNat < s.cfg.memSize ∧ b = a + 1#32 then v.extractLsb' 8 8
      else if b.toNat < s.cfg.memSize ∧ b = a + 2#32 then v.extractLsb' 16 8
      else if b.toNat < s.cfg.memSize ∧ b = a + 3#32 then v.extractLsb' 24 8 else peek8 b s := by
  split_ifs with h0 h1 h2 h3
  · exact peek8_memWrite_at .word (k := 0) hw (by decide) (by simpa using h0.2) h0.1
  · exact peek8_memWrite_at .word (k := 1) hw (by decide) h1.2 h1.1
  · exact peek8_memWrite_at .word (k := 2) hw (by decide) h2.2 h2.1
  · exact peek8_memWrite_at .word (k := 3) hw (by decide) h3.2 h3.1
  · refine peek8_memWrite_other .word hw fun hr k hk e => ?_
    obtain rfl | rfl | rfl | rfl : k = 0 ∨ k = 1 ∨ k = 2 ∨ k = 3 := by simp only [Width.bytes] at hk; omega
    · exact h0 ⟨hr, by simpa using e⟩
    · exact h1 ⟨hr, e⟩
    · exact h2 ⟨hr, e⟩
    · exact h3 ⟨hr, e⟩

/-- Settles O29: where each byte of a write goes, and the round trips. -/
theorem wideWritesPutInRangeBytes : Obligations.WideWritesPutInRangeBytes := by
  refine fun a s hw => ⟨peek8_write16 hw a, peek8_write32 hw a, fun v hr => ?_, fun v => read16_write16 hw⟩
  rw [read32_spec]
  exact peek32_write32 hw hr

/-- Settles O30: each half is two neighbouring bytes of the word written. -/
theorem mixedWidthAccessesAgree : Obligations.MixedWidthAccessesAgree := by
  intro a v s hw hr
  have byte : ∀ k, k < 4 → peek8 (a + BitVec.ofNat 32 k) (write32 a v s) = byteOfWord v k :=
    fun _ => peek8_write32_at hw hr
  refine ⟨read16_eq_of_bytes (k := 0) ?_ (byte 1 (by decide)), read16_eq_of_bytes (byte 2 (by decide)) ?_,
    fun k hk => ?_⟩
  · simpa using byte 0 (by decide)
  · rw [add_two_one]
    exact byte 3 (by decide)
  · rw [read8_spec]
    exact byte k hk

/-! ## The warnings of an access (R66, R70, R71) -/

theorem accessEvents_eq_nil_iff (n : Width) (a : Word) (s : State) :
    accessEvents n a s = [] ↔ ∀ k, k < n.bytes → (a + BitVec.ofNat 32 k).toNat < s.cfg.memSize := by
  simp only [accessEvents, List.map_eq_nil_iff, List.filter_eq_nil_iff, List.mem_range, Bool.not_eq_true',
    Bool.not_eq_false, inRange_iff]

theorem accessEvents_of_outside {n : Width} {a : Word} {s : State}
    (h : ∀ k, k < n.bytes → s.cfg.memSize ≤ (a + BitVec.ofNat 32 k).toNat) :
    accessEvents n a s = (List.range n.bytes).map fun k => .outOfRange (a + BitVec.ofNat 32 k) := by
  have all : ∀ k ∈ List.range n.bytes, (!inRange (a + BitVec.ofNat 32 k) s) = true := fun k hk => by
    rw [(inRange_eq_false_iff _ s).mpr (h k (List.mem_range.mp hk)), Bool.not_false]
  rw [accessEvents, List.filter_eq_self.mpr all]

/-- Settles O31: a read and a write add the same `accessEvents`, whose two extremes are the last clauses. -/
theorem accessWarnsOncePerByteInOrder : Obligations.AccessWarnsOncePerByteInOrder := by
  refine fun n a v s => ⟨?_, memWrite_events n a v s, accessEvents_eq_nil_iff n a s, accessEvents_of_outside⟩
  rw [memRead_spec, addEvents_events]

/-! ## Construction (R60, R61) -/

/-- MEM_SIZE is the least multiple of 16 that is not below the request. -/
theorem memSize_rounds_up (c : Config) :
    c.memSize % 16 = 0 ∧ c.memSizeReq ≤ c.memSize ∧ c.memSize < c.memSizeReq + 16 := by
  unfold Config.memSize
  omega

theorem construct_eq_none_iff (c : Config) : construct c = none ↔ (c.memSize < 16 ∨ 0xFFFFFFF0 < c.memSize) := by
  have : ¬ c.legal ↔ (c.memSize < 16 ∨ 0xFFFFFFF0 < c.memSize) := by
    unfold Config.legal
    omega
  rw [← this, construct, ite_eq_right_iff]
  simp only [reduceCtorEq, imp_false]

/-- Where no byte has been written, an in-range byte is the fill. -/
theorem peek8_of_unwritten {a : Word} {s : State} (hm : s.mem = []) (h : a.toNat < s.cfg.memSize) :
    peek8 a s = memFill := by
  rw [peek8_of_lt h, hm, readCell]

theorem byteOfWord_fill {k : Nat} (hk : k < 4) : byteOfWord 0xA5A5A5A5#32 k = memFill := by
  revert k
  decide

theorem construct_fields {c : Config} {s : State} (h : construct c = some s) :
    s.cfg = c ∧ s.mem = [] ∧ resetEngine s = s := by
  obtain ⟨-, rfl⟩ := construct_eq_some h
  exact ⟨rfl, rfl, rfl⟩

/-- Settles O53: a constructed state is the reset state with its parameters, in which no byte has been written. -/
theorem constructionRoundsAndFills : Obligations.ConstructionRoundsAndFills := by
  refine ⟨memSize_rounds_up, construct_eq_none_iff, fun c s hc => ?_⟩
  obtain ⟨hcfg, hmem, hreset⟩ := construct_fields hc
  have fill : ∀ a : Word, a.toNat < c.memSize → peek8 a s = memFill :=
    fun a ha => peek8_of_unwritten hmem (by rwa [hcfg])
  refine ⟨hcfg, hreset, fill, fun a hr => ?_⟩
  rw [read32_spec]
  exact peek32_eq_of_bytes fun k hk => (fill _ (hr k hk)).trans (byteOfWord_fill hk).symm

/-! ## A store and the next fetch (R81) -/

/-- Settles O57: the fetch gives the word at the pc, which is the word stored, and its bytes are all in range. -/
theorem nextFetchSeesStoredWord : Obligations.NextFetchSeesStoredWord := by
  intro rs1 rs2 imm s t hw hr hx u hm hc hp
  obtain rfl : storeWith .word rs1 rs2 imm s = t := Host.Outcome.next.inj hx
  have params : u.cfg = s.cfg := by rw [hc, storeWith_spec, commitPc_cfg, memWrite_cfg]
  rw [fetch_spec, fetched_events, hp]
  constructor
  · calc peek32 (effAddr rs1 imm s) u
        = peek32 (effAddr rs1 imm s) (write32 (effAddr rs1 imm s) (getReg rs2 s) s) :=
          peek32_congr (params.trans (write32_cfg _ _ s).symm) hm _
      _ = getReg rs2 s := peek32_write32 hw hr
  · rw [accessEvents_eq_nil_iff, params]
    exact hr

end Sys2Proof.Machine
end

section
/-! PROOFS. The statements about the encoding (30_encoding.md): the immediates bit by bit, decode and encode as
inverses, the words that STRICT_DECODE rejects, and the illegal space. -/

namespace Sys2Proof

/-! ## The immediates, bit by bit (R98 to R102) -/

section
variable (w : Word) {k : Nat} (hk : k < 32)
include hk

theorem getLsbD_immI : (immI w).getLsbD k = if k < 11 then w.getLsbD (20 + k) else w.getLsbD 31 := by
  simp only [immI, BitVec.getLsbD_signExtend, BitVec.getLsbD_extractLsb', BitVec.msb_eq_getLsbD_last]
  grind

theorem getLsbD_immS : (immS w).getLsbD k =
    if k < 5 then w.getLsbD (7 + k) else if k < 11 then w.getLsbD (20 + k) else w.getLsbD 31 := by
  simp only [immS, BitVec.getLsbD_signExtend, BitVec.getLsbD_extractLsb', BitVec.getLsbD_append,
    BitVec.msb_eq_getLsbD_last]
  grind

theorem getLsbD_immB : (immB w).getLsbD k =
    if k = 0 then false else if k < 5 then w.getLsbD (7 + k) else if k < 11 then w.getLsbD (20 + k)
    else if k = 11 then w.getLsbD 7 else w.getLsbD 31 := by
  simp only [immB, BitVec.getLsbD_signExtend, BitVec.getLsbD_extractLsb', BitVec.getLsbD_append,
    BitVec.msb_eq_getLsbD_last]
  grind

theorem getLsbD_immU : (immU w).getLsbD k = if k < 12 then false else w.getLsbD k := by
  simp only [immU, BitVec.getLsbD_extractLsb', BitVec.getLsbD_append]
  grind

theorem getLsbD_immJ : (immJ w).getLsbD k =
    if k = 0 then false else if k < 11 then w.getLsbD (20 + k) else if k = 11 then w.getLsbD 20
    else if k < 20 then w.getLsbD k else w.getLsbD 31 := by
  simp only [immJ, BitVec.getLsbD_signExtend, BitVec.getLsbD_extractLsb', BitVec.getLsbD_append,
    BitVec.msb_eq_getLsbD_last]
  grind

end

/-- Settles O33: one lemma for each of the five immediates. -/
theorem immediatesAreTheFormatsBits : Obligations.ImmediatesAreTheFormatsBits :=
  fun w _ hk => ⟨getLsbD_immI w hk, getLsbD_immS w hk, getLsbD_immB w hk, getLsbD_immU w hk, getLsbD_immJ w hk⟩

/-! ## Decoding an encoding (R91 to R93) -/

namespace Laws

/-- The laws of the single instructions, one for each row of the opcode table. -/
theorem roundTrip : ∀ i : Instr, RoundTrip.Statement i
  | .lui .. => RoundTrip.lui _ _
  | .auipc .. => RoundTrip.auipc _ _
  | .jal .. => RoundTrip.jal _ _
  | .jalr .. => RoundTrip.jalr _ _ _
  | .beq .. => RoundTrip.beq _ _ _
  | .bne .. => RoundTrip.bne _ _ _
  | .blt .. => RoundTrip.blt _ _ _
  | .bge .. => RoundTrip.bge _ _ _
  | .bltu .. => RoundTrip.bltu _ _ _
  | .bgeu .. => RoundTrip.bgeu _ _ _
  | .lb .. => RoundTrip.lb _ _ _
  | .lh .. => RoundTrip.lh _ _ _
  | .lw .. => RoundTrip.lw _ _ _
  | .lbu .. => RoundTrip.lbu _ _ _
  | .lhu .. => RoundTrip.lhu _ _ _
  | .sb .. => RoundTrip.sb _ _ _
  | .sh .. => RoundTrip.sh _ _ _
  | .sw .. => RoundTrip.sw _ _ _
  | .addi .. => RoundTrip.addi _ _ _
  | .slti .. => RoundTrip.slti _ _ _
  | .sltiu .. => RoundTrip.sltiu _ _ _
  | .xori .. => RoundTrip.xori _ _ _
  | .ori .. => RoundTrip.ori _ _ _
  | .andi .. => RoundTrip.andi _ _ _
  | .slli .. => RoundTrip.slli _ _ _
  | .srli .. => RoundTrip.srli _ _ _
  | .srai .. => RoundTrip.srai _ _ _
  | .add .. => RoundTrip.add _ _ _
  | .sub .. => RoundTrip.sub _ _ _
  | .sll .. => RoundTrip.sll _ _ _
  | .slt .. => RoundTrip.slt _ _ _
  | .sltu .. => RoundTrip.sltu _ _ _
  | .xor .. => RoundTrip.xor _ _ _
  | .srl .. => RoundTrip.srl _ _ _
  | .sra .. => RoundTrip.sra _ _ _
  | .or .. => RoundTrip.or _ _ _
  | .and .. => RoundTrip.and _ _ _
  | .fence .. => RoundTrip.fence _ _ _ _ _
  | .ecall => RoundTrip.ecall
  | .ebreak => RoundTrip.ebreak
  | .csrrw .. => RoundTrip.csrrw _ _ _
  | .csrrs .. => RoundTrip.csrrs _ _ _
  | .csrrc .. => RoundTrip.csrrc _ _ _
  | .csrrwi .. => RoundTrip.csrrwi _ _ _
  | .csrrsi .. => RoundTrip.csrrsi _ _ _
  | .csrrci .. => RoundTrip.csrrci _ _ _

end Laws

/-- Settles O34: by the law of the instruction's own row. -/
theorem decodeOfEncodeIsIdentity : Obligations.DecodeOfEncodeIsIdentity :=
  fun i strict hw => Laws.roundTrip i hw strict

/-! ## Encoding a decoded word: a word is the pack of what the decoder reads from it and of the selectors it matched -/

section
variable {w : Word} {op : BitVec 7} {f3 : BitVec 3} {f7 : BitVec 7}

theorem packR_of_selectors (hop : opcode w = op) (hf3 : funct3 w = f3) (hf7 : funct7 w = f7) :
    packR f7 (fieldRs2 w) (fieldRs1 w) f3 (fieldRd w) op = w := by
  rw [← hop, ← hf3, ← hf7, packR_fields]

theorem packI_of_selectors (hop : opcode w = op) (hf3 : funct3 w = f3) :
    packI (fieldCsr w) (fieldRs1 w) f3 (fieldRd w) op = w := by
  rw [← hop, ← hf3, packI_fields]

theorem packI_immI_of_selectors (hop : opcode w = op) (hf3 : funct3 w = f3) :
    packI (low12 (immI w)) (fieldRs1 w) f3 (fieldRd w) op = w := by
  rw [low12_immI, packI_of_selectors hop hf3]

theorem packS_of_selectors (hop : opcode w = op) (hf3 : funct3 w = f3) :
    packS (immS w) (fieldRs2 w) (fieldRs1 w) f3 op = w := by
  rw [← hop, ← hf3, packS_fields]

theorem packB_of_selectors (hop : opcode w = op) (hf3 : funct3 w = f3) :
    packB (immB w) (fieldRs2 w) (fieldRs1 w) f3 op = w := by
  rw [← hop, ← hf3, packB_fields]

theorem packU_of_selectors (hop : opcode w = op) : packU (immU w) (fieldRd w) op = w := by
  rw [← hop, packU_fields]

theorem packJ_of_selectors (hop : opcode w = op) : packJ (immJ w) (fieldRd w) op = w := by
  rw [← hop, packJ_fields]

end

section
variable {w : Word} {i : Instr}

theorem encode_of_decodeBranch (hop : opcode w = 0b1100011#7) (h : decodeBranch w = .ok i) : encode i = w := by
  unfold decodeBranch at h
  split at h <;> cases h
  all_goals exact packB_of_selectors hop ‹_›

theorem encode_of_decodeLoad (hop : opcode w = 0b0000011#7) (h : decodeLoad w = .ok i) : encode i = w := by
  unfold decodeLoad at h
  split at h <;> cases h
  all_goals exact packI_immI_of_selectors hop ‹_›

theorem encode_of_decodeStore (hop : opcode w = 0b0100011#7) (h : decodeStore w = .ok i) : encode i = w := by
  unfold decodeStore at h
  split at h <;> cases h
  all_goals exact packS_of_selectors hop ‹_›

theorem funct3_cases (f : BitVec 3) : f = 0b000#3 ∨ f = 0b001#3 ∨ f = 0b010#3 ∨ f = 0b011#3 ∨ f = 0b100#3 ∨
    f = 0b101#3 ∨ f = 0b110#3 ∨ f = 0b111#3 := by
  bv_omega

/-- A family's default arm: the selectors matched before it leave one value of funct3. -/
theorem funct3_last (f : BitVec 3) (h0 : f ≠ 0b000#3) (h1 : f ≠ 0b001#3) (h2 : f ≠ 0b010#3) (h3 : f ≠ 0b011#3)
    (h4 : f ≠ 0b100#3) (h6 : f ≠ 0b110#3) (h7 : f ≠ 0b111#3) : f = 0b101#3 := by
  bv_omega

theorem encode_of_decodeAluImm (hop : opcode w = 0b0010011#7) (h : decodeAluImm true w = .ok i) : encode i = w := by
  unfold decodeAluImm at h
  split at h
  case h_7 hf3 =>
    obtain ⟨rfl, hf7⟩ := unexamined_ok h
    exact packR_of_selectors hop hf3 (hf7 rfl)
  case h_8 h0 h2 h3 h4 h6 h7 h1 =>
    have hf3 := funct3_last _ h0 h1 h2 h3 h4 h6 h7
    split at h <;> cases h
    all_goals exact packR_of_selectors hop hf3 ‹_›
  all_goals
    cases h
    exact packI_immI_of_selectors hop ‹_›

theorem encode_of_decodeAluReg (hop : opcode w = 0b0110011#7) (h : decodeAluReg true w = .ok i) : encode i = w := by
  unfold decodeAluReg at h
  split at h
  case h_1 hf3 =>
    split at h <;> cases h
    all_goals exact packR_of_selectors hop hf3 ‹_›
  case h_8 h0 h1 h2 h3 h4 h6 h7 =>
    have hf3 := funct3_last _ h0 h1 h2 h3 h4 h6 h7
    split at h <;> cases h
    all_goals exact packR_of_selectors hop hf3 ‹_›
  all_goals
    obtain ⟨rfl, hf7⟩ := unexamined_ok h
    exact packR_of_selectors hop ‹_› (hf7 rfl)

theorem encode_of_decodeSystem (hop : opcode w = 0b1110011#7) (h : decodeSystem w = .ok i) : encode i = w := by
  unfold decodeSystem at h
  split at h
  case isTrue hw => cases h; exact hw.symm
  split at h
  case isTrue hw => cases h; exact hw.symm
  split at h <;> cases h
  all_goals exact packI_of_selectors hop ‹_›

/-- Under STRICT_DECODE every bit of an accepted word is an operand or a fixed bit (R112). -/
theorem encode_of_decode_strict (h : decode true w = .ok i) : encode i = w := by
  unfold decode at h
  split at h
  case h_1 hop | h_2 hop => cases h; exact packU_of_selectors hop
  case h_3 hop => cases h; exact packJ_of_selectors hop
  case h_4 hop => -- JALR
    obtain ⟨rfl, hf3⟩ := unexamined_ok h
    exact packI_immI_of_selectors hop (hf3 rfl)
  case h_5 hop => exact encode_of_decodeBranch hop h
  case h_6 hop => exact encode_of_decodeLoad hop h
  case h_7 hop => exact encode_of_decodeStore hop h
  case h_8 hop => exact encode_of_decodeAluImm hop h
  case h_9 hop => exact encode_of_decodeAluReg hop h
  case h_10 hop => -- FENCE
    obtain ⟨rfl, hf3⟩ := unexamined_ok h
    rw [encode, fence_fields, packI_of_selectors hop (hf3 rfl)]
  case h_11 hop => exact encode_of_decodeSystem hop h
  case h_12 => cases h

end

/-- Settles O35: from a word by the packs of its fields, from an instruction by the laws of the round trip. -/
theorem strictDecodeInvertsEncode : Obligations.StrictDecodeInvertsEncode := by
  intro w i
  constructor
  · exact fun h => ⟨decode_wellFormed h, encode_of_decode_strict h⟩
  · rintro ⟨hw, rfl⟩
    exact Laws.roundTrip i hw true

/-! ## What STRICT_DECODE rejects (R112) -/

section
variable {n : Nat} {field : BitVec n} (i : Instr)

theorem unexamined_false : unexamined false field i = .ok i := rfl

theorem unexamined_zero (strict : Bool) : unexamined strict 0#n i = .ok i := by
  simp [unexamined]

theorem unexamined_true_of_ne (h : field ≠ 0#n) : unexamined true field i = .error .reservedField := by
  simp [unexamined, h]

end

/-- The words of R112, with a nonzero field that only STRICT_DECODE examines. -/
def ReservedField (w : Word) : Prop :=
  (opcode w ∈ [0x67#7, 0x0F#7] ∧ funct3 w ≠ 0b000#3) ∨
  (opcode w = 0x13#7 ∧ funct3 w = 0b001#3 ∧ funct7 w ≠ 0#7) ∨
  (opcode w = 0x33#7 ∧ funct3 w ∈ [0b001#3, 0b010#3, 0b011#3, 0b100#3, 0b110#3, 0b111#3] ∧ funct7 w ≠ 0#7)

/-- The strict decoder's answer is the default decoder's, but `reservedField` where a reserved field is set, which the
default decoder never answers. -/
def NarrowsTo (strict default : Except Illegal Instr) (reserved : Prop) : Prop :=
  (reserved ∧ strict = .error .reservedField) ∨
  (¬ reserved ∧ strict = default ∧ default ≠ .error .reservedField)

theorem NarrowsTo.same {d : Except Illegal Instr} {reserved : Prop} (hr : ¬ reserved)
    (hd : d ≠ .error .reservedField) : NarrowsTo d d reserved :=
  .inr ⟨hr, rfl, hd⟩

/-- A field outside the dispatch narrows where it is not zero. -/
theorem NarrowsTo.of_field {n : Nat} {field : BitVec n} {i : Instr} {reserved : Prop}
    (hr : reserved ↔ field ≠ 0#n) : NarrowsTo (unexamined true field i) (unexamined false field i) reserved := by
  rw [unexamined_false]
  by_cases hf : field = 0#n
  · exact .inr ⟨fun h => hr.mp h hf, by rw [hf, unexamined_zero], nofun⟩
  · exact .inl ⟨hr.mpr hf, unexamined_true_of_ne i hf⟩

section
variable (w : Word)

theorem decodeBranch_ne_reservedField : decodeBranch w ≠ .error .reservedField := by
  unfold decodeBranch; split <;> nofun

theorem decodeLoad_ne_reservedField : decodeLoad w ≠ .error .reservedField := by
  unfold decodeLoad; split <;> nofun

theorem decodeStore_ne_reservedField : decodeStore w ≠ .error .reservedField := by
  unfold decodeStore; split <;> nofun

theorem decodeSystem_ne_reservedField : decodeSystem w ≠ .error .reservedField := by
  unfold decodeSystem; split_ifs
  · nofun
  · nofun
  · split <;> nofun

theorem decodeAluImm_narrows :
    NarrowsTo (decodeAluImm true w) (decodeAluImm false w) (funct3 w = 0b001#3 ∧ funct7 w ≠ 0#7) := by
  unfold decodeAluImm
  split
  case h_7 hf3 => exact .of_field (and_iff_right hf3)
  case h_8 h1 => exact .same (fun h => h1 h.1) (by split <;> nofun)
  all_goals exact .same (by simp [*]) nofun

theorem decodeAluReg_narrows :
    NarrowsTo (decodeAluReg true w) (decodeAluReg false w)
      (funct3 w ∈ [0b001#3, 0b010#3, 0b011#3, 0b100#3, 0b110#3, 0b111#3] ∧ funct7 w ≠ 0#7) := by
  unfold decodeAluReg
  split
  case h_1 => exact .same (by simp [*]) (by split <;> nofun)
  case h_8 h0 h1 h2 h3 h4 h6 h7 =>
    have hf3 := funct3_last _ h0 h1 h2 h3 h4 h6 h7
    exact .same (by simp [hf3]) (by split <;> nofun)
  all_goals exact .of_field (by simp [*])

/-- The two decoders agree but on the words of R112, family by family. -/
theorem decode_narrows : NarrowsTo (decode true w) (decode false w) (ReservedField w) := by
  unfold decode
  split
  case h_4 hop | h_10 hop => exact .of_field (by simp [ReservedField, hop]) -- JALR and FENCE
  case h_5 hop => exact .same (by simp [ReservedField, hop]) (decodeBranch_ne_reservedField w)
  case h_6 hop => exact .same (by simp [ReservedField, hop]) (decodeLoad_ne_reservedField w)
  case h_7 hop => exact .same (by simp [ReservedField, hop]) (decodeStore_ne_reservedField w)
  case h_8 hop => simpa [ReservedField, hop] using decodeAluImm_narrows w
  case h_9 hop => simpa [ReservedField, hop] using decodeAluReg_narrows w
  case h_11 hop => exact .same (by simp [ReservedField, hop]) (decodeSystem_ne_reservedField w)
  case h_12 => exact .same (by simp_all [ReservedField]) nofun
  all_goals exact .same (by simp [ReservedField, *]) nofun

end

/-- Settles O36: the decoder narrows by exactly the words of R112. -/
theorem strictDecodeOnlyNarrows : Obligations.StrictDecodeOnlyNarrows := by
  intro w
  obtain ⟨hr, hs⟩ | ⟨hr, hs, hd⟩ := decode_narrows w
  · exact ⟨.inr hs, iff_of_true hs hr⟩
  · exact ⟨.inl hs, iff_of_false (hs ▸ hd) hr⟩

end Sys2Proof

namespace Sys2Proof.Machine

/-! ## The illegal space (R113) -/

/-- What the decoder answers for an illegal word: no instruction, or a CSR form (R113 item 7). -/
def illegalDecode : Except Illegal Instr → Bool
  | .error _ => true
  | .ok i => csrForm i

section
variable (w : Word)

theorem illegalDecode_decodeBranch : illegalDecode (decodeBranch w) = true ↔ funct3 w ∈ [0b010#3, 0b011#3] := by
  obtain h | h | h | h | h | h | h | h := funct3_cases (funct3 w)
  all_goals simp [decodeBranch, h, illegalDecode, csrForm]

theorem illegalDecode_decodeLoad :
    illegalDecode (decodeLoad w) = true ↔ funct3 w ∈ [0b011#3, 0b110#3, 0b111#3] := by
  obtain h | h | h | h | h | h | h | h := funct3_cases (funct3 w)
  all_goals simp [decodeLoad, h, illegalDecode, csrForm]

theorem illegalDecode_decodeStore :
    illegalDecode (decodeStore w) = true ↔ funct3 w ∈ [0b011#3, 0b100#3, 0b101#3, 0b110#3, 0b111#3] := by
  obtain h | h | h | h | h | h | h | h := funct3_cases (funct3 w)
  all_goals simp [decodeStore, h, illegalDecode, csrForm]

theorem illegalDecode_decodeAluImm : illegalDecode (decodeAluImm false w) = true ↔
    funct3 w = 0b101#3 ∧ funct7 w ∉ [0b0000000#7, 0b0100000#7] := by
  unfold decodeAluImm
  split
  case h_8 h0 h2 h3 h4 h6 h7 h1 =>
    have hf3 := funct3_last _ h0 h1 h2 h3 h4 h6 h7
    split
    all_goals simp_all [illegalDecode, csrForm]
  all_goals simp [*, illegalDecode, csrForm, unexamined_false]

theorem illegalDecode_decodeAluReg : illegalDecode (decodeAluReg false w) = true ↔
    funct3 w ∈ [0b000#3, 0b101#3] ∧ funct7 w ∉ [0b0000000#7, 0b0100000#7] := by
  unfold decodeAluReg
  split
  case h_1 =>
    split
    all_goals simp_all [illegalDecode, csrForm]
  case h_8 h0 h1 h2 h3 h4 h6 h7 =>
    have hf3 := funct3_last _ h0 h1 h2 h3 h4 h6 h7
    split
    all_goals simp_all [illegalDecode, csrForm]
  all_goals simp [*, illegalDecode, csrForm, unexamined_false]

theorem illegalDecode_decodeSystem :
    illegalDecode (decodeSystem w) = true ↔ w ∉ [0x00000073#32, 0x00100073#32] := by
  unfold decodeSystem
  split_ifs with hc hb
  · simp [hc, illegalDecode, csrForm]
  · simp [hb, illegalDecode, csrForm]
  · refine iff_of_true ?_ (by simp [hc, hb])
    split <;> rfl

/-- Items 1 to 7 of R113: the words the default decoder answers no instruction or a CSR form for. -/
theorem illegalDecode_default_iff : illegalDecode (decode false w) = true ↔ IllegalWord false w := by
  unfold decode
  split
  case h_5 hop => simp [illegalDecode_decodeBranch, IllegalWord, hop]
  case h_6 hop => simp [illegalDecode_decodeLoad, IllegalWord, hop]
  case h_7 hop => simp [illegalDecode_decodeStore, IllegalWord, hop]
  case h_8 hop => simp [illegalDecode_decodeAluImm, IllegalWord, hop]
  case h_9 hop => simp [illegalDecode_decodeAluReg, IllegalWord, hop]
  case h_11 hop => simp [illegalDecode_decodeSystem, IllegalWord, hop]
  case h_12 => exact iff_of_true rfl (.inl (by simp_all))
  all_goals simp [illegalDecode, csrForm, unexamined_false, IllegalWord, *]

/-- STRICT_DECODE adds item 8. -/
theorem illegalWord_strict_iff : IllegalWord true w ↔ IllegalWord false w ∨ ReservedField w := by
  simp only [IllegalWord, ReservedField, true_and, Bool.false_eq_true, false_and, or_false, or_assoc]

theorem illegalDecode_iff (strict : Bool) : illegalDecode (decode strict w) = true ↔ IllegalWord strict w := by
  cases strict with
  | false => exact illegalDecode_default_iff w
  | true =>
    rw [illegalWord_strict_iff, ← illegalDecode_default_iff]
    obtain ⟨hr, hs⟩ | ⟨hr, hs, -⟩ := decode_narrows w
    · exact iff_of_true (by rw [hs, illegalDecode]) (.inr hr)
    · rw [hs, or_iff_left hr]

end

/-! ## The step on an illegal word -/

theorem retired_ne_illegal {t : State} (h : t.outcome = some .retired) :
    t.outcome ≠ some (.halted .illegalInstruction) := by
  rw [h]; nofun

/-- The CSR forms are the only instructions that halt as illegal (R113 item 7; 49_system.md R230). -/
theorem exec_illegal_iff (i : Instr) (s : State) :
    ∃ t, exec i s = .next t ∧ (t.outcome = some (.halted .illegalInstruction) ↔ csrForm i = true) := by
  cases i
  case csrrw | csrrs | csrrc | csrrwi | csrrsi | csrrci => exact ⟨_, rfl, iff_of_true rfl rfl⟩
  case ecall | ebreak => exact ⟨_, rfl, iff_of_false nofun nofun⟩
  all_goals exact ⟨_, rfl, iff_of_false (retired_ne_illegal rfl) nofun⟩

theorem step_of_undecodable {s : State} {e : Illegal} (hrun : s.halted = false)
    (hd : decode s.cfg.strictDecode (peek32 s.pc s) = .error e) :
    step s = .next (raiseHalt .illegalInstruction (fetched s)) := by
  rw [step_of_running hrun, runWord, fetched_cfg, hd]

/-- A running core halts as illegal exactly when the decoder's answer is an illegal word's. -/
theorem step_illegal_iff {s : State} (hrun : s.halted = false) :
    ∃ t, step s = .next t ∧ (t.outcome = some (.halted .illegalInstruction) ↔
      illegalDecode (decode s.cfg.strictDecode (peek32 s.pc s)) = true) := by
  cases hd : decode s.cfg.strictDecode (peek32 s.pc s) with
  | error e => exact ⟨_, step_of_undecodable hrun hd, iff_of_true rfl rfl⟩
  | ok i =>
    rw [step_of_running hrun, runWord, fetched_cfg, hd]
    exact exec_illegal_iff i (fetched s)

/-- Settles O38: the step answers one state, which halts as illegal exactly when the decoder's answer is that of an
illegal word. -/
theorem illegalSpaceHalts : Obligations.IllegalSpaceHalts := by
  intro s hrun
  obtain ⟨t, ht, hi⟩ := step_illegal_iff hrun
  rw [← illegalDecode_iff, ← hi, ht]
  constructor
  · rintro ⟨u, hu, ho⟩
    cases hu
    exact ho
  · exact fun ho => ⟨t, rfl, ho⟩

/-! ## Unwritten memory (R116) -/

theorem decode_fill (strict : Bool) : decode strict 0xA5A5A5A5#32 = .error .unknownOpcode := rfl

/-- Settles O59: the word fetched is the fill word, whose opcode is in no family. -/
theorem unwrittenMemoryHalts : Obligations.UnwrittenMemoryHalts := by
  intro s hrun hr hfill
  have word : peek32 s.pc s = 0xA5A5A5A5#32 := peek32_eq_of_bytes fun k hk => by
    rw [peek8_of_lt (hr k hk), hfill k hk, byteOfWord_fill hk, memFill]
  have step_eq := step_of_undecodable hrun (word ▸ decode_fill s.cfg.strictDecode)
  refine ⟨_, step_eq, rfl, rfl, ?_⟩
  rw [raiseHalt_events, fetched_events, accessEvents_eq_nil_iff]
  exact hr

end Sys2Proof.Machine
end

section
/-! PROOFS. The statements about the step cycle (40_step_cycle.md): how a step ends, what it counts and writes, the
word it runs, a pc outside the memory, and how the run loop exits. -/

namespace Sys2Proof.Machine

/-! ## What an instruction does to the control state, shape by shape -/

/-- An instruction retires and leaves the halted flag, or halts the core with a cause (R42). -/
theorem Effect.retires_or_halts {i : Instr} {s t : State} (he : Effect i s t) :
    (t.halted = s.halted ∧ t.outcome = some .retired) ∨ (t.halted = true ∧ ∃ c, t.outcome = some (.halted c)) := by
  cases he with
  | register rd v target es even => exact .inl ⟨by rw [commitReg_halted, addEvents_halted], commitReg_outcome ..⟩
  | transfer target even => exact .inl ⟨rfl, rfl⟩
  | store n a v => exact .inl ⟨by rw [commitPc_halted, memWrite_halted], commitPc_outcome ..⟩
  | halt c => exact .inr ⟨rfl, c, rfl⟩

/-- The counter belongs to the step: no instruction writes it (R136). -/
theorem Effect.insnCount_eq {i : Instr} {s t : State} (he : Effect i s t) : t.insnCount = s.insnCount := by
  cases he with
  | register rd v target es even => rw [commitReg_insnCount, addEvents_insnCount]
  | transfer target even => rfl
  | store n a v => rw [commitPc_insnCount, memWrite_insnCount]
  | halt c => rfl

/-- The destination of a register write is the only register that can read differently. -/
theorem Effect.registers_but_one {i : Instr} {s t : State} (he : Effect i s t) :
    ∃ rd : Reg, ∀ r, r ≠ rd → getReg r t = getReg r s := by
  cases he with
  | register rd v target es even =>
    exact ⟨rd, fun r hr => by rw [getReg_commitReg, getReg_setReg_other hr, getReg_addEvents]⟩
  | transfer target even => exact ⟨0#5, fun _ _ => rfl⟩
  | store n a v => exact ⟨0#5, fun r _ => by rw [getReg_commitPc, getReg_memWrite]⟩
  | halt c => exact ⟨0#5, fun _ _ => rfl⟩

/-! ## The step -/

theorem step_of_decoded {s : State} {i : Instr} (hrun : s.halted = false)
    (hd : decode s.cfg.strictDecode (peek32 s.pc s) = .ok i) : step s = exec i (fetched s) := by
  rw [step_of_running hrun, runWord, fetched_cfg, hd]

/-- The step is total: neither the decoder nor a handler is partial (R134). -/
theorem exists_step (s : State) : ∃ t, step s = .next t := by
  cases hs : s.halted with
  | true => exact ⟨_, step_of_halted hs⟩
  | false =>
    cases hd : decode s.cfg.strictDecode (peek32 s.pc s) with
    | error e => exact ⟨_, step_of_undecodable hs hd⟩
    | ok i =>
      obtain ⟨t, ht, -⟩ := exec_effect i (fetched s)
      exact ⟨t, (step_of_decoded hs hd).trans ht⟩

theorem step_insnCount {s t : State} (hrun : s.halted = false) (hst : step s = .next t) :
    t.insnCount = s.insnCount + 1 := by
  obtain ⟨hh, -⟩ | ⟨-, e, -, rfl⟩ | ⟨-, i, -, he, -⟩ := step_cases hst
  · exact absurd (hrun.symm.trans hh) Bool.false_ne_true
  · rfl
  · rw [he.insnCount_eq, fetched_insnCount]

/-- Settles O41: the step is total, and each case of `step_cases` has one of the three outcomes. -/
theorem stepAlwaysCompletes : Obligations.StepAlwaysCompletes := by
  intro s
  obtain ⟨t, hst⟩ := exists_step s
  refine ⟨t, hst, ?_⟩
  obtain ⟨hh, rfl⟩ | ⟨hrun, e, -, rfl⟩ | ⟨hrun, i, -, he, -⟩ := step_cases hst
  · exact .inl ⟨hh, rfl⟩
  · exact .inr (.inr ⟨hrun, rfl, _, rfl⟩)
  · obtain ⟨hkeep, ho⟩ | ⟨hhalt, hc⟩ := he.retires_or_halts
    · exact .inr (.inl ⟨hrun, hkeep.trans hrun, ho⟩)
    · exact .inr (.inr ⟨hrun, hhalt, hc⟩)

/-- Settles O45: `beginStep` counts, and neither the halt nor a handler writes the counter. -/
theorem everyRunningStepCountsOnce : Obligations.EveryRunningStepCountsOnce :=
  fun _ _ hrun hst => step_insnCount hrun hst

/-- Settles O46: only a handler writes registers, and each shape of one writes at most its destination. -/
theorem stepWritesAtMostOneRegister : Obligations.StepWritesAtMostOneRegister := by
  intro s t hst
  obtain ⟨-, rfl⟩ | ⟨-, e, -, rfl⟩ | ⟨-, i, -, he, -⟩ := step_cases hst
  · exact ⟨0#5, fun _ _ => rfl⟩
  · exact ⟨0#5, fun _ _ => rfl⟩
  · exact he.registers_but_one

/-- Settles O42: the four bytes are `peek32` written out, and the state they run in is `fetched`. -/
theorem stepRunsDecodedInstruction : Obligations.StepRunsDecodedInstruction :=
  fun _ _ hrun hd => step_of_decoded hrun hd

/-- Settles O44: the statement writes out `idle`. -/
theorem haltedStepIsIdle : Obligations.HaltedStepIsIdle :=
  fun _ hh => step_of_halted hh

/-! ## A pc outside the memory (R139) -/

theorem peek8_of_le {a : Word} {s : State} (h : s.cfg.memSize ≤ a.toNat) : peek8 a s = 0x00#8 := by
  rw [peek8, (inRange_eq_false_iff a s).mpr h, if_neg Bool.false_ne_true]

/-- Four bytes that do not wrap around 2^32 are all outside the memory when the first one is. -/
theorem offset_outside {a : Word} {size k : Nat} (hout : size ≤ a.toNat) (htop : a.toNat ≤ 0xFFFFFFFC) (hk : k < 4) :
    size ≤ (a + BitVec.ofNat 32 k).toNat := by
  rw [BitVec.toNat_add, BitVec.toNat_ofNat]
  omega

theorem byteOfWord_zero (k : Nat) : byteOfWord 0#32 k = 0x00#8 := BitVec.extractLsb'_zero

/-- The word 0 is no instruction: its opcode is in no family (R113 item 1). -/
theorem decode_zero (strict : Bool) : decode strict 0#32 = .error .unknownOpcode := rfl

/-- Settles O58: each byte fetched is 0x00 with a warning, and the word 0 is undecodable. -/
theorem pcOutsideMemoryHalts : Obligations.PcOutsideMemoryHalts := by
  intro s hrun hout htop
  have outside : ∀ k, k < 4 → s.cfg.memSize ≤ (s.pc + BitVec.ofNat 32 k).toNat :=
    fun k hk => offset_outside hout htop hk
  have word : peek32 s.pc s = 0#32 := peek32_eq_of_bytes fun k hk => by
    rw [peek8_of_le (outside k hk), byteOfWord_zero]
  have step_eq := step_of_undecodable hrun (word ▸ decode_zero s.cfg.strictDecode)
  refine ⟨_, step_eq, rfl, rfl, rfl, ?_⟩
  calc (raiseHalt .illegalInstruction (fetched s)).events
      = (List.range 4).map fun k => .outOfRange (s.pc + BitVec.ofNat 32 k) := accessEvents_of_outside outside
    _ = [.outOfRange (s.pc + 0#32), .outOfRange (s.pc + 1#32), .outOfRange (s.pc + 2#32),
          .outOfRange (s.pc + 3#32)] := rfl
    _ = [.outOfRange s.pc, .outOfRange (s.pc + 1#32), .outOfRange (s.pc + 2#32), .outOfRange (s.pc + 3#32)] := by
      rw [BitVec.add_zero]

/-! ## The run loop (R140, R141) -/

theorem limitReached_iff (s : State) :
    limitReached s = true ↔ ∃ n, s.cfg.insnLimit = some n ∧ n ≤ s.insnCount := by
  unfold limitReached
  cases s.cfg.insnLimit with
  | none => simp
  | some n => simp

/-- The test of the loop: no further step is taken from s. -/
def stopped (s : State) : Bool := s.halted || limitReached s

theorem stopped_iff (s : State) :
    stopped s = true ↔ s.halted = true ∨ ∃ n, s.cfg.insnLimit = some n ∧ n ≤ s.insnCount := by
  rw [stopped, Bool.or_eq_true, limitReached_iff]

theorem running_of_not_stopped {s : State} (h : stopped s = false) : s.halted = false :=
  (Bool.or_eq_false_iff.mp h).1

theorem insnCount_lt_of_not_stopped {s : State} {n : Nat} (h : stopped s = false) (hlim : s.cfg.insnLimit = some n) :
    s.insnCount < n := by
  by_contra hge
  have hs : stopped s = true := (stopped_iff s).mpr (.inr ⟨n, hlim, Nat.le_of_not_lt hge⟩)
  exact Bool.false_ne_true (h.symm.trans hs)

theorem runLoop_of_stopped {s : State} (h : stopped s = true) (fuel : Nat) (es : List Event) :
    runLoop fuel s es = .ended s es := by
  unfold runLoop
  exact if_pos h

theorem runLoop_zero {s : State} (h : stopped s = false) (es : List Event) : runLoop 0 s es = .outOfFuel s es := by
  unfold runLoop
  exact if_neg (Bool.not_eq_true _ ▸ h)

/-- The loop takes the step, which always exists, and goes on with one less fuel. -/
theorem runLoop_succ {s t : State} (h : stopped s = false) (hst : step s = .next t) (k : Nat) (es : List Event) :
    runLoop (k + 1) s es = runLoop k t (es ++ t.events) := by
  rw [runLoop, if_neg (Bool.not_eq_true _ ▸ h), hst]

theorem eq_of_runLoop_ended {fuel : Nat} {s t : State} {es fs : List Event} (hs : stopped s = true)
    (h : runLoop fuel s es = .ended t fs) : t = s := by
  rw [runLoop_of_stopped hs] at h
  exact (RunEnd.ended.inj h).1.symm

/-- The state a run loop ends in is stopped. -/
theorem stopped_of_runLoop_ended (fuel : Nat) :
    ∀ {s t : State} {es fs : List Event}, runLoop fuel s es = .ended t fs → stopped t = true := by
  induction fuel with
  | zero =>
    intro s t es fs h
    cases hs : stopped s with
    | true => rwa [eq_of_runLoop_ended hs h]
    | false =>
      rw [runLoop_zero hs] at h
      cases h
  | succ k ih =>
    intro s t es fs h
    cases hs : stopped s with
    | true => rwa [eq_of_runLoop_ended hs h]
    | false =>
      obtain ⟨u, hu⟩ := exists_step s
      rw [runLoop_succ hs hu] at h
      exact ih h

theorem runLoop_ended_cfg {fuel : Nat} {s t : State} {es fs : List Event} (h : runLoop fuel s es = .ended t fs) :
    t.cfg = s.cfg :=
  runLoop_invariant (P := fun u => u.cfg = s.cfg) (fun _ _ hc hst => (step_cfg hst).trans hc) fuel s es t fs rfl h

/-- While the limit is not reached each step brings the counter one nearer to it, so fuel for the distance is enough
and the counter never passes the limit. -/
theorem runLoop_ends_within_limit {n : Nat} (fuel : Nat) :
    ∀ {s : State} (es : List Event), s.cfg.insnLimit = some n → s.insnCount ≤ n → n ≤ s.insnCount + fuel →
      ∃ t fs, runLoop fuel s es = .ended t fs ∧ t.insnCount ≤ n := by
  induction fuel with
  | zero =>
    intro s es hlim hle hfuel
    have hs : stopped s = true := (stopped_iff s).mpr (.inr ⟨n, hlim, hfuel⟩)
    exact ⟨s, es, runLoop_of_stopped hs 0 es, hle⟩
  | succ k ih =>
    intro s es hlim hle hfuel
    cases hs : stopped s with
    | true => exact ⟨s, es, runLoop_of_stopped hs _ es, hle⟩
    | false =>
      obtain ⟨u, hu⟩ := exists_step s
      have count : u.insnCount = s.insnCount + 1 := step_insnCount (running_of_not_stopped hs) hu
      have below : s.insnCount < n := insnCount_lt_of_not_stopped hs hlim
      rw [runLoop_succ hs hu]
      exact ih _ (by rw [step_cfg hu, hlim]) (by omega) (by omega)

/-! ## A run: the start of run writes register 2 alone (R276), so the loop meets the same limit and counter -/

@[simp] theorem startRun_cfg (s : State) : (startRun s).cfg = s.cfg := setReg_cfg ..
@[simp] theorem startRun_insnCount (s : State) : (startRun s).insnCount = s.insnCount := setReg_insnCount ..

theorem run_ended_cfg {fuel : Nat} {s t : State} {es : List Event} (h : run fuel s = .ended t es) : t.cfg = s.cfg :=
  (runLoop_ended_cfg h).trans (startRun_cfg s)

/-- A run that ended is stopped, judged by the limit it started with. -/
theorem run_ended_stopped {fuel : Nat} {s t : State} {es : List Event} (h : run fuel s = .ended t es) :
    t.halted = true ∨ ∃ n, s.cfg.insnLimit = some n ∧ n ≤ t.insnCount := by
  rw [← run_ended_cfg h]
  exact (stopped_iff t).mp (stopped_of_runLoop_ended fuel h)

/-- Settles O56: the loop exits only from a stopped state, and no step changes the limit. -/
theorem runEndsOnlyByHaltOrLimit : Obligations.RunEndsOnlyByHaltOrLimit :=
  fun _ _ _ _ h => run_ended_stopped h

/-- Settles O55: the loop ends with the counter not above the limit, and when not by a halt then not below it. -/
theorem runWithLimitEndsAtHaltOrLimit : Obligations.RunWithLimitEndsAtHaltOrLimit := by
  intro s n fuel hlim hle hfuel
  obtain ⟨t, es, hrun, hn⟩ : ∃ t es, run fuel s = .ended t es ∧ t.insnCount ≤ n :=
    runLoop_ends_within_limit fuel [] (by rwa [startRun_cfg]) (by rwa [startRun_insnCount])
      (by rwa [startRun_insnCount])
  refine ⟨t, es, hrun, run_ended_cfg hrun, hn, (run_ended_stopped hrun).imp_right ?_⟩
  rintro ⟨m, hm, hge⟩
  obtain rfl : n = m := Option.some.inj (hlim.symm.trans hm)
  exact Nat.le_antisymm hn hge

end Sys2Proof.Machine
end

section
/-! PROOFS. The statements about LUI and AUIPC (41_upper_immediate.md), with the two lemmas that every
instruction writing one register rests on: the opcode of a table row, and the frame of `commitReg`. -/

namespace Sys2Proof

/-! ## Rows whose mask is the opcode (R150, R151) -/

/-- A row whose mask covers the seven opcode bits fixes the opcode. -/
theorem opcode_of_row {w mask value : Word} (h : w &&& mask = value)
    (covers : mask.extractLsb' 0 7 = BitVec.allOnes 7) : opcode w = opcode value :=
  field_of_mask h 0 7 covers

theorem decode_of_opcode_lui {w : Word} (hop : opcode w = 0b0110111#7) (strict : Bool) :
    decode strict w = .ok (.lui (fieldRd w) (immU w)) := by
  simp only [decode, hop]

theorem decode_of_opcode_auipc {w : Word} (hop : opcode w = 0b0010111#7) (strict : Bool) :
    decode strict w = .ok (.auipc (fieldRd w) (immU w)) := by
  simp only [decode, hop]

/-! ## The U immediate as a mask -/

theorem getLsbD_upper_mask {k : Nat} (hk : k < 32) : (0xFFFFF000#32).getLsbD k = decide (12 ≤ k) := by
  rw [show 0xFFFFF000#32 = BitVec.allOnes 32 <<< 12 from rfl, BitVec.getLsbD_shiftLeft, BitVec.getLsbD_allOnes]
  grind

/-- R101 leaves the upper twenty bits in place, which is what masking the low twelve does. -/
theorem immU_eq_and_mask (w : Word) : immU w = w &&& 0xFFFFF000#32 := by
  apply BitVec.eq_of_getLsbD_eq
  intro k hk
  rw [getLsbD_immU w hk, BitVec.getLsbD_and, getLsbD_upper_mask hk]
  split <;> grind

namespace Machine

/-! ## The frame of an instruction that writes a register and retires -/

/-- `commitReg` writes its destination, moves the pc and retires; nothing else changes. -/
theorem writesRegister_commitReg (rd : Reg) (v target : Word) (s : State) :
    WritesRegister s (commitReg rd v target s) rd v target where
  retired := commitReg_outcome rd v target s
  dest hrd := getReg_setReg_same hrd v s
  zero := getReg_zero _
  others _ hr := getReg_setReg_other hr v s
  pc := commitReg_pc rd v target s
  cells := commitReg_mem rd v target s
  bytes := peek8_congr (commitReg_cfg rd v target s) (commitReg_mem rd v target s)
  control := ⟨commitReg_halted rd v target s, commitReg_insnCount rd v target s, commitReg_cfg rd v target s⟩

/-- An instruction whose handler is `commitReg` computes its value into its destination and warns of nothing. -/
theorem computesInto_of_commitReg {i : Instr} {s : State} {rd : Reg} {v target : Word}
    (answer : exec i s = .next (commitReg rd v target s)) : ComputesInto i s rd v target :=
  ⟨_, answer, writesRegister_commitReg rd v target s, commitReg_events rd v target s⟩

/-! ## The two handlers -/

theorem exec_lui (rd : Reg) (imm : Word) (s : State) :
    exec (.lui rd imm) s = .next (commitReg rd imm (nextPc s) s) := rfl

theorem exec_auipc (rd : Reg) (imm : Word) (s : State) :
    exec (.auipc rd imm) s = .next (commitReg rd (pcRelative imm s) (nextPc s) s) := rfl

/-- A pc-relative value is the unsigned sum of the pc and the immediate, modulo 2^32. -/
theorem pcRelative_eq_ofNat (imm : Word) (s : State) :
    pcRelative imm s = BitVec.ofNat 32 (s.pc.toNat + imm.toNat) := by
  rw [pcRelative, BitVec.ofNat_add, BitVec.ofNat_toNat, BitVec.ofNat_toNat, BitVec.setWidth_eq, BitVec.setWidth_eq]

/-- Settles O1: the row fixes the opcode, and the handler commits the immediate itself. -/
theorem luiWritesUpperImmediate : Obligations.LuiWritesUpperImmediate := by
  constructor
  · intro strict w row
    have hop : opcode w = 0b0110111#7 := opcode_of_row row rfl
    rw [decode_of_opcode_lui hop, immU_eq_and_mask, fieldRd]
  · exact fun rd imm s => computesInto_of_commitReg (exec_lui rd imm s)

/-- Settles O2: the row fixes the opcode, and the handler commits the sum with the pc before the advance. -/
theorem auipcAddsPcAndImmediate : Obligations.AuipcAddsPcAndImmediate := by
  constructor
  · intro strict w row
    have hop : opcode w = 0b0010111#7 := opcode_of_row row rfl
    rw [decode_of_opcode_auipc hop, immU_eq_and_mask, fieldRd]
  · intro rd imm s
    rw [← pcRelative_eq_ofNat]
    exact computesInto_of_commitReg (exec_auipc rd imm s)

end Machine
end Sys2Proof
end

section
/-! PROOFS. The statements about JAL and JALR (42_jumps.md). -/

namespace Sys2Proof

/-! ## The two rows (R155, R156) -/

theorem decode_of_opcode_jal {w : Word} (hop : opcode w = 0b1101111#7) (strict : Bool) :
    decode strict w = .ok (.jal (fieldRd w) (immJ w)) := by
  simp only [decode, hop]

theorem decode_of_opcode_jalr {w : Word} (hop : opcode w = 0b1100111#7) (strict : Bool) :
    decode strict w = unexamined strict (funct3 w) (.jalr (fieldRd w) (fieldRs1 w) (immI w)) := by
  simp only [decode, hop]

/-! ## Targets as exact sums -/

/-- A signed offset added to an unsigned base is their exact sum modulo 2^32 (R155, R156). -/
theorem add_eq_ofInt (base offset : Word) : base + offset = BitVec.ofInt 32 (base.toNat + offset.toInt) := by
  rw [BitVec.ofInt_add, BitVec.ofInt_natCast, BitVec.ofNat_toNat, BitVec.setWidth_eq, BitVec.ofInt_toInt]

/-- The mask of JALR keeps every bit but bit 0 (decision D13). -/
theorem getLsbD_even_mask {k : Nat} (hpos : 0 < k) (hk : k < 32) : (0xFFFFFFFE#32).getLsbD k = true := by
  rw [show 0xFFFFFFFE#32 = BitVec.allOnes 32 <<< 1 from rfl, BitVec.getLsbD_shiftLeft, BitVec.getLsbD_allOnes]
  grind

namespace Machine

theorem getLsbD_jalrTarget {k : Nat} (hpos : 0 < k) (hk : k < 32) (rs1 : Reg) (imm : Word) (s : State) :
    (jalrTarget rs1 imm s).getLsbD k = (getReg rs1 s + imm).getLsbD k := by
  rw [jalrTarget, BitVec.getLsbD_and, getLsbD_even_mask hpos hk, Bool.and_true]

/-! ## The two handlers -/

theorem exec_jal (rd : Reg) (imm : Word) (s : State) :
    exec (.jal rd imm) s = .next (commitReg rd (nextPc s) (pcRelative imm s) s) := rfl

theorem exec_jalr (rd rs1 : Reg) (imm : Word) (s : State) :
    exec (.jalr rd rs1 imm) s = .next (commitReg rd (nextPc s) (jalrTarget rs1 imm s) s) := rfl

/-- Settles O3: the row fixes the opcode, and the handler commits the link and moves the pc to the exact sum. -/
theorem jalLinksAndJumps : Obligations.JalLinksAndJumps := by
  constructor
  · intro strict w row
    have hop : opcode w = 0b1101111#7 := opcode_of_row row rfl
    rw [decode_of_opcode_jal hop, fieldRd]
  · intro rd imm s
    rw [← add_eq_ofInt]
    exact computesInto_of_commitReg (exec_jal rd imm s)

/-- Settles O4: the rows fix the opcode, and under STRICT_DECODE the field it examines; the target is the handler's,
whose mask touches bit 0 alone. -/
theorem jalrLinksAndJumps : Obligations.JalrLinksAndJumps := by
  refine ⟨fun w row => ?default, fun w row => ?strict, fun rd rs1 imm s => ?meaning⟩
  case default =>
    have hop : opcode w = 0b1100111#7 := opcode_of_row row rfl
    rw [decode_of_opcode_jalr hop, unexamined_false, fieldRd, fieldRs1]
  case strict =>
    have hop : opcode w = 0b1100111#7 := opcode_of_row row rfl
    have hf3 : funct3 w = 0#3 := field_of_mask row 12 3 rfl
    rw [decode_of_opcode_jalr hop, hf3, unexamined_zero, fieldRd, fieldRs1]
  case meaning =>
    refine ⟨jalrTarget rs1 imm s, computesInto_of_commitReg (exec_jalr rd rs1 imm s), jalrTarget_even rs1 imm s, ?_⟩
    intro k hpos hk
    rw [getLsbD_jalrTarget hpos hk, add_eq_ofInt]

end Machine
end Sys2Proof
end

section
/-! PROOFS. The statements about the six conditional branches (43_branches.md), with the frame of `commitPc` that
every instruction moving only the pc rests on. -/

namespace Sys2Proof

/-! ## The six rows (R161 to R166) -/

theorem decode_of_opcode_branch {w : Word} (hop : opcode w = 0b1100011#7) (strict : Bool) :
    decode strict w = decodeBranch w := by
  simp only [decode, hop]

theorem decodeBranch_beq {w : Word} (hf3 : funct3 w = 0b000#3) :
    decodeBranch w = .ok (.beq (fieldRs1 w) (fieldRs2 w) (immB w)) := by
  simp only [decodeBranch, hf3]

theorem decodeBranch_bne {w : Word} (hf3 : funct3 w = 0b001#3) :
    decodeBranch w = .ok (.bne (fieldRs1 w) (fieldRs2 w) (immB w)) := by
  simp only [decodeBranch, hf3]

theorem decodeBranch_blt {w : Word} (hf3 : funct3 w = 0b100#3) :
    decodeBranch w = .ok (.blt (fieldRs1 w) (fieldRs2 w) (immB w)) := by
  simp only [decodeBranch, hf3]

theorem decodeBranch_bge {w : Word} (hf3 : funct3 w = 0b101#3) :
    decodeBranch w = .ok (.bge (fieldRs1 w) (fieldRs2 w) (immB w)) := by
  simp only [decodeBranch, hf3]

theorem decodeBranch_bltu {w : Word} (hf3 : funct3 w = 0b110#3) :
    decodeBranch w = .ok (.bltu (fieldRs1 w) (fieldRs2 w) (immB w)) := by
  simp only [decodeBranch, hf3]

theorem decodeBranch_bgeu {w : Word} (hf3 : funct3 w = 0b111#3) :
    decodeBranch w = .ok (.bgeu (fieldRs1 w) (fieldRs2 w) (immB w)) := by
  simp only [decodeBranch, hf3]

namespace Machine

/-- A row with the opcode of the family decodes to the instruction i that level 2 reads under the row's funct3. -/
theorem rowDecodes_branch {value : Word} {i : Reg → Reg → Word → Instr} (hop : opcode value = 0b1100011#7)
    (level2 : ∀ w, funct3 w = funct3 value → decodeBranch w = .ok (i (fieldRs1 w) (fieldRs2 w) (immB w))) :
    RowDecodes 0x0000707F#32 value (fun w => i (w.extractLsb' 15 5) (w.extractLsb' 20 5) (immB w)) := by
  intro strict w row
  have hopw : opcode w = 0b1100011#7 := (opcode_of_row row rfl).trans hop
  have hf3 : funct3 w = funct3 value := field_of_mask row 12 3 rfl
  rw [decode_of_opcode_branch hopw, level2 w hf3, fieldRs1, fieldRs2]

/-! ## The frame of an instruction that only moves the pc -/

/-- `commitPc` moves the pc and retires; nothing else changes. -/
theorem movesPc_commitPc (target : Word) (s : State) : MovesPc s (commitPc target s) target where
  retired := commitPc_outcome target s
  registers r := getReg_commitPc r target s
  pc := commitPc_pc target s
  cells := commitPc_mem target s
  bytes := peek8_congr (commitPc_cfg target s) (commitPc_mem target s)
  events := commitPc_events target s
  control := ⟨commitPc_halted target s, commitPc_insnCount target s, commitPc_cfg target s⟩

theorem jumpsTo_of_commitPc {i : Instr} {s : State} {target : Word}
    (answer : exec i s = .next (commitPc target s)) : JumpsTo i s target :=
  ⟨_, answer, movesPc_commitPc target s⟩

/-! ## What the six branches share (R160) -/

/-- The target of a branch whose test decides the condition, taken or not. -/
theorem branchIf_eq_commitPc {taken : Bool} {cond : Prop} [Decidable cond] (test : taken = true ↔ cond)
    (imm : Word) (s : State) : branchIf taken imm s =
      commitPc (if cond then BitVec.ofInt 32 (s.pc.toNat + imm.toInt) else s.pc + 4#32) s := by
  simp only [branchIf, test, pcRelative, nextPc, add_eq_ofInt s.pc imm]

/-- An instruction whose handler is `branchIf` moves the pc as the condition its test decides says. -/
theorem jumpsTo_of_branchIf {i : Instr} {s : State} {taken : Bool} {imm : Word} {cond : Prop} [Decidable cond]
    (answer : exec i s = .next (branchIf taken imm s)) (test : taken = true ↔ cond) :
    JumpsTo i s (if cond then BitVec.ofInt 32 (s.pc.toNat + imm.toInt) else s.pc + 4#32) :=
  jumpsTo_of_commitPc (answer.trans (congrArg _ (branchIf_eq_commitPc test imm s)))

/-! ## The conditions -/

theorem ltSigned_iff (a b : Word) : ltSigned a b = true ↔ a.toInt < b.toInt := decide_eq_true_iff

theorem ltUnsigned_iff (a b : Word) : ltUnsigned a b = true ↔ a.toNat < b.toNat := decide_eq_true_iff

theorem not_ltSigned_iff (a b : Word) : (!ltSigned a b) = true ↔ a.toInt ≥ b.toInt := by
  rw [Bool.not_eq_true', ← Bool.not_eq_true, ltSigned_iff, Int.not_lt]

theorem not_ltUnsigned_iff (a b : Word) : (!ltUnsigned a b) = true ↔ a.toNat ≥ b.toNat := by
  rw [Bool.not_eq_true', ← Bool.not_eq_true, ltUnsigned_iff, Nat.not_lt]

/-! ## The six handlers -/

theorem exec_beq (rs1 rs2 : Reg) (imm : Word) (s : State) :
    exec (.beq rs1 rs2 imm) s = .next (branchIf (getReg rs1 s == getReg rs2 s) imm s) := rfl

theorem exec_bne (rs1 rs2 : Reg) (imm : Word) (s : State) :
    exec (.bne rs1 rs2 imm) s = .next (branchIf (getReg rs1 s != getReg rs2 s) imm s) := rfl

theorem exec_blt (rs1 rs2 : Reg) (imm : Word) (s : State) :
    exec (.blt rs1 rs2 imm) s = .next (branchIf (ltSigned (getReg rs1 s) (getReg rs2 s)) imm s) := rfl

theorem exec_bge (rs1 rs2 : Reg) (imm : Word) (s : State) :
    exec (.bge rs1 rs2 imm) s = .next (branchIf (!ltSigned (getReg rs1 s) (getReg rs2 s)) imm s) := rfl

theorem exec_bltu (rs1 rs2 : Reg) (imm : Word) (s : State) :
    exec (.bltu rs1 rs2 imm) s = .next (branchIf (ltUnsigned (getReg rs1 s) (getReg rs2 s)) imm s) := rfl

theorem exec_bgeu (rs1 rs2 : Reg) (imm : Word) (s : State) :
    exec (.bgeu rs1 rs2 imm) s = .next (branchIf (!ltUnsigned (getReg rs1 s) (getReg rs2 s)) imm s) := rfl

/-- Settles O5: the rows fix opcode and funct3, and the tests are the boolean equality and its negation. -/
theorem beqBneBranchOnEquality : Obligations.BeqBneBranchOnEquality :=
  ⟨rowDecodes_branch rfl fun _ => decodeBranch_beq,
   rowDecodes_branch rfl fun _ => decodeBranch_bne,
   fun rs1 rs2 imm s =>
    ⟨jumpsTo_of_branchIf (exec_beq rs1 rs2 imm s) beq_iff_eq,
     jumpsTo_of_branchIf (exec_bne rs1 rs2 imm s) bne_iff_ne⟩⟩

/-- Settles O6: the rows fix opcode and funct3, and the tests are the order of the integers and its negation. -/
theorem bltBgeBranchOnSignedOrder : Obligations.BltBgeBranchOnSignedOrder :=
  ⟨rowDecodes_branch rfl fun _ => decodeBranch_blt,
   rowDecodes_branch rfl fun _ => decodeBranch_bge,
   fun rs1 rs2 imm s =>
    ⟨jumpsTo_of_branchIf (exec_blt rs1 rs2 imm s) (ltSigned_iff ..),
     jumpsTo_of_branchIf (exec_bge rs1 rs2 imm s) (not_ltSigned_iff ..)⟩⟩

/-- Settles O7: the rows fix opcode and funct3, and the tests are the order of the naturals and its negation. -/
theorem bltuBgeuBranchOnUnsignedOrder : Obligations.BltuBgeuBranchOnUnsignedOrder :=
  ⟨rowDecodes_branch rfl fun _ => decodeBranch_bltu,
   rowDecodes_branch rfl fun _ => decodeBranch_bgeu,
   fun rs1 rs2 imm s =>
    ⟨jumpsTo_of_branchIf (exec_bltu rs1 rs2 imm s) (ltUnsigned_iff ..),
     jumpsTo_of_branchIf (exec_bgeu rs1 rs2 imm s) (not_ltUnsigned_iff ..)⟩⟩

end Machine
end Sys2Proof
end

section
/-! PROOFS. The statements about the five loads (44_loads.md). -/

namespace Sys2Proof

/-! ## The five rows (R171 to R175) -/

theorem decode_of_opcode_load {w : Word} (hop : opcode w = 0b0000011#7) (strict : Bool) :
    decode strict w = decodeLoad w := by
  simp only [decode, hop]

theorem decodeLoad_lb {w : Word} (hf3 : funct3 w = 0b000#3) :
    decodeLoad w = .ok (.lb (fieldRd w) (fieldRs1 w) (immI w)) := by
  simp only [decodeLoad, hf3]

theorem decodeLoad_lh {w : Word} (hf3 : funct3 w = 0b001#3) :
    decodeLoad w = .ok (.lh (fieldRd w) (fieldRs1 w) (immI w)) := by
  simp only [decodeLoad, hf3]

theorem decodeLoad_lw {w : Word} (hf3 : funct3 w = 0b010#3) :
    decodeLoad w = .ok (.lw (fieldRd w) (fieldRs1 w) (immI w)) := by
  simp only [decodeLoad, hf3]

theorem decodeLoad_lbu {w : Word} (hf3 : funct3 w = 0b100#3) :
    decodeLoad w = .ok (.lbu (fieldRd w) (fieldRs1 w) (immI w)) := by
  simp only [decodeLoad, hf3]

theorem decodeLoad_lhu {w : Word} (hf3 : funct3 w = 0b101#3) :
    decodeLoad w = .ok (.lhu (fieldRd w) (fieldRs1 w) (immI w)) := by
  simp only [decodeLoad, hf3]

/-! ## Extending a value that was read at n bits (R70, 00_scope.md R9) -/

/-- `sext_n` of a zero-extended n-bit value is the sign extension of that value. -/
theorem sext_setWidth {n : Nat} (hn : n ≤ 32) (v : BitVec n) : sext n (v.setWidth 32) = v.signExtend 32 := by
  rw [sext, BitVec.setWidth_setWidth_of_le v hn, BitVec.setWidth_eq]

/-- `zext_n` leaves a zero-extended n-bit value as it is. -/
theorem zext_setWidth {n : Nat} (hn : n ≤ 32) (v : BitVec n) : zext n (v.setWidth 32) = v.setWidth 32 := by
  rw [zext, BitVec.setWidth_setWidth_of_le v hn, BitVec.setWidth_eq]

namespace Machine

/-- A row with the opcode of the family decodes to the instruction i that level 2 reads under the row's funct3. -/
theorem rowDecodes_load {value : Word} {i : Reg → Reg → Word → Instr} (hop : opcode value = 0b0000011#7)
    (level2 : ∀ w, funct3 w = funct3 value → decodeLoad w = .ok (i (fieldRd w) (fieldRs1 w) (immI w))) :
    RowDecodes 0x0000707F#32 value (fun w => i (w.extractLsb' 7 5) (w.extractLsb' 15 5) (immI w)) := by
  intro strict w row
  have hopw : opcode w = 0b0000011#7 := (opcode_of_row row rfl).trans hop
  have hf3 : funct3 w = funct3 value := field_of_mask row 12 3 rfl
  rw [decode_of_opcode_load hopw, level2 w hf3, fieldRd, fieldRs1]

/-! ## The value of a read, from the bytes `peek8` gives -/

theorem memRead_byte_value (a : Word) (s : State) : (memRead .byte a s).1 = (peek8 a s).setWidth 32 := by
  simp only [memRead, read8_spec]

theorem memRead_half_value (a : Word) (s : State) :
    (memRead .half a s).1 = (peek8 (a + 1#32) s ++ peek8 a s).setWidth 32 := by
  simp only [memRead, read16_spec]

theorem memRead_word_value (a : Word) (s : State) :
    (memRead .word a s).1 = peek8 (a + 3#32) s ++ peek8 (a + 2#32) s ++ peek8 (a + 1#32) s ++ peek8 a s := by
  simp only [memRead, read32_spec, peek32, wordOfBytes]

/-! ## What the five loads share (R170) -/

/-- Warnings given before the register is written are no part of what `WritesRegister` compares. -/
theorem WritesRegister.of_addEvents {s t : State} {es : List Event} {rd : Reg} {v target : Word}
    (h : WritesRegister (addEvents es s) t rd v target) : WritesRegister s t rd v target :=
  { h with control := { h.control with } }

/-- An instruction whose handler is `loadWith` puts the extended value of the read into its destination, whatever
the read warned of. -/
theorem loadsInto_of_loadWith {i : Instr} {s : State} {n : Width} {extend : Word → Word} {rd rs1 : Reg} {imm v : Word}
    (answer : exec i s = .next (loadWith n extend rd rs1 imm s))
    (value : extend (memRead n (getReg rs1 s + imm) s).1 = v) : LoadsInto i s rd v (s.pc + 4#32) := by
  refine ⟨_, answer, ?_⟩
  have frame : (memRead n (getReg rs1 s + imm) s).2 = addEvents (accessEvents n (getReg rs1 s + imm) s) s := by
    rw [memRead_spec]
  rw [loadWith, effAddr, frame, value, nextPc]
  exact (writesRegister_commitReg rd v _ _).of_addEvents

/-! ## The five handlers -/

theorem exec_lb (rd rs1 : Reg) (imm : Word) (s : State) :
    exec (.lb rd rs1 imm) s = .next (loadWith .byte (sext 8) rd rs1 imm s) := rfl

theorem exec_lh (rd rs1 : Reg) (imm : Word) (s : State) :
    exec (.lh rd rs1 imm) s = .next (loadWith .half (sext 16) rd rs1 imm s) := rfl

theorem exec_lw (rd rs1 : Reg) (imm : Word) (s : State) :
    exec (.lw rd rs1 imm) s = .next (loadWith .word id rd rs1 imm s) := rfl

theorem exec_lbu (rd rs1 : Reg) (imm : Word) (s : State) :
    exec (.lbu rd rs1 imm) s = .next (loadWith .byte (zext 8) rd rs1 imm s) := rfl

theorem exec_lhu (rd rs1 : Reg) (imm : Word) (s : State) :
    exec (.lhu rd rs1 imm) s = .next (loadWith .half (zext 16) rd rs1 imm s) := rfl

/-- Settles O8: the rows fix opcode and funct3, and the two handlers extend the one byte read. -/
theorem byteLoadsExtendOneByte : Obligations.ByteLoadsExtendOneByte := by
  refine ⟨rowDecodes_load rfl fun _ => decodeLoad_lb, rowDecodes_load rfl fun _ => decodeLoad_lbu,
    fun rd rs1 imm s => ⟨loadsInto_of_loadWith (exec_lb rd rs1 imm s) ?signed,
      loadsInto_of_loadWith (exec_lbu rd rs1 imm s) ?unsigned⟩⟩
  case signed => rw [memRead_byte_value, sext_setWidth (by decide)]
  case unsigned => rw [memRead_byte_value, zext_setWidth (by decide)]

/-- Settles O9: the rows fix opcode and funct3, and the two handlers extend the two bytes read. -/
theorem halfLoadsExtendTwoBytes : Obligations.HalfLoadsExtendTwoBytes := by
  refine ⟨rowDecodes_load rfl fun _ => decodeLoad_lh, rowDecodes_load rfl fun _ => decodeLoad_lhu,
    fun rd rs1 imm s => ⟨loadsInto_of_loadWith (exec_lh rd rs1 imm s) ?signed,
      loadsInto_of_loadWith (exec_lhu rd rs1 imm s) ?unsigned⟩⟩
  case signed => rw [memRead_half_value, sext_setWidth (by decide)]
  case unsigned => rw [memRead_half_value, zext_setWidth (by decide)]

/-- Settles O10: the row fixes opcode and funct3, and the handler writes the four bytes read as they are. -/
theorem wordLoadReadsFourBytes : Obligations.WordLoadReadsFourBytes :=
  ⟨rowDecodes_load rfl fun _ => decodeLoad_lw, fun rd rs1 imm s =>
    loadsInto_of_loadWith (exec_lw rd rs1 imm s) (memRead_word_value (getReg rs1 s + imm) s)⟩

end Machine
end Sys2Proof
end

section
/-! PROOFS. The statements about the three stores (45_stores.md). -/

namespace Sys2Proof

/-! ## The three rows (R181 to R183) -/

theorem decode_sb {w : Word} (hop : opcode w = 0b0100011#7) (hf3 : funct3 w = 0b000#3) (strict : Bool) :
    decode strict w = .ok (.sb (fieldRs1 w) (fieldRs2 w) (immS w)) := by
  simp only [decode, hop, decodeStore, hf3]

theorem decode_sh {w : Word} (hop : opcode w = 0b0100011#7) (hf3 : funct3 w = 0b001#3) (strict : Bool) :
    decode strict w = .ok (.sh (fieldRs1 w) (fieldRs2 w) (immS w)) := by
  simp only [decode, hop, decodeStore, hf3]

theorem decode_sw {w : Word} (hop : opcode w = 0b0100011#7) (hf3 : funct3 w = 0b010#3) (strict : Bool) :
    decode strict w = .ok (.sw (fieldRs1 w) (fieldRs2 w) (immS w)) := by
  simp only [decode, hop, decodeStore, hf3]

namespace Machine

/-- A row that fixes opcode and funct3 decodes to i when every word with these two fields does. -/
theorem rowDecodes_of_opcode_funct3 {value : Word} {i : Word → Instr}
    (h : ∀ w, opcode w = opcode value → funct3 w = funct3 value → ∀ strict, decode strict w = .ok (i w)) :
    RowDecodes 0x0000707F#32 value i :=
  fun strict w row => h w (opcode_of_row row rfl) (field_of_mask row 12 3 rfl) strict

/-! ## What a write leaves to be read, whatever the form of the memory list -/

theorem peek8_write8_of_ne {a b : Word} (hne : b ≠ a) (v : Byte) (s : State) :
    peek8 b (write8 a v s) = peek8 b s := by
  have cell : a.toNat ≠ b.toNat := fun e => hne (BitVec.eq_of_toNat_eq e.symm)
  obtain ha | ha := Nat.lt_or_ge a.toNat s.cfg.memSize
  · rw [write8_of_lt ha]
    exact congrArg (if inRange b s then · else 0x00#8) (readCell_writeCell_other cell v s.mem)
  · rw [write8_of_le ha]
    rfl

/-- A byte that is at no offset of a write reads as before. -/
theorem peek8_memWrite_outside (n : Width) {a b : Word} (v : Word) (s : State)
    (h : ∀ k, k < n.bytes → b ≠ a + BitVec.ofNat 32 k) : peek8 b (memWrite n a v s) = peek8 b s := by
  have h0 : b ≠ a := fun e => h 0 (by cases n <;> decide) (e.trans (BitVec.add_zero a).symm)
  cases n with
  | byte => rw [memWrite, peek8_write8_of_ne h0]
  | half =>
    have h1 : b ≠ a + 1#32 := h 1 (by decide)
    rw [memWrite, write16, peek8_write8_of_ne h1, peek8_write8_of_ne h0]
  | word =>
    have h1 : b ≠ a + 1#32 := h 1 (by decide)
    have h2 : b ≠ a + 2#32 := h 2 (by decide)
    have h3 : b ≠ a + 3#32 := h 3 (by decide)
    rw [memWrite, write32, write16, write16, add_two_one, peek8_write8_of_ne h3, peek8_write8_of_ne h2,
      peek8_write8_of_ne h1, peek8_write8_of_ne h0]

/-- A byte out of range reads 0x00 after any write (R64, R65). -/
theorem peek8_memWrite_of_le {b : Word} {s : State} (h : s.cfg.memSize ≤ b.toNat) (n : Width) (a v : Word) :
    peek8 b (memWrite n a v s) = 0x00#8 :=
  peek8_of_le (by rwa [memWrite_cfg])

/-! ## What the three stores share (R180) -/

@[simp] theorem peek8_commitPc (b target : Word) (s : State) : peek8 b (commitPc target s) = peek8 b s := rfl

/-- `storeWith` writes the low bytes of `x[rs2]` at the address, moves the pc and retires. -/
theorem storesBytes_storeWith (n : Width) (rs1 rs2 : Reg) (imm : Word) (s : State) :
    StoresBytes s (storeWith n rs1 rs2 imm s) n.bytes (effAddr rs1 imm s) (getReg rs2 s) (s.pc + 4#32) := by
  rw [storeWith_spec]
  exact {
    retired := commitPc_outcome ..
    registers := fun r => by rw [getReg_commitPc, getReg_memWrite]
    pc := commitPc_pc ..
    stored := fun hw k hk hr => peek8_memWrite_at n hw hk rfl ((inRange_iff _ s).mp hr)
    dropped := fun k _ hr =>
      peek8_memWrite_of_le ((inRange_eq_false_iff _ s).mp (Bool.eq_false_of_not_eq_true hr)) n _ _
    outside := fun b hb => by rw [peek8_commitPc, peek8_memWrite_outside n _ s hb]
    control :=
      { halted := by rw [commitPc_halted, memWrite_halted]
        count := by rw [commitPc_insnCount, memWrite_insnCount]
        params := by rw [commitPc_cfg, memWrite_cfg] } }

/-- An instruction whose handler is `storeWith` stores as many bytes as the width says. -/
theorem storesTo_of_storeWith {i : Instr} {s : State} {n : Width} {rs1 rs2 : Reg} {imm : Word}
    (answer : exec i s = .next (storeWith n rs1 rs2 imm s)) :
    StoresTo i s n.bytes (effAddr rs1 imm s) (getReg rs2 s) (s.pc + 4#32) :=
  ⟨_, answer, storesBytes_storeWith n rs1 rs2 imm s⟩

/-! ## The three handlers -/

theorem exec_sb (rs1 rs2 : Reg) (imm : Word) (s : State) :
    exec (.sb rs1 rs2 imm) s = .next (storeWith .byte rs1 rs2 imm s) := rfl

theorem exec_sh (rs1 rs2 : Reg) (imm : Word) (s : State) :
    exec (.sh rs1 rs2 imm) s = .next (storeWith .half rs1 rs2 imm s) := rfl

theorem exec_sw (rs1 rs2 : Reg) (imm : Word) (s : State) :
    exec (.sw rs1 rs2 imm) s = .next (storeWith .word rs1 rs2 imm s) := rfl

/-- Settles O11: the row fixes opcode and funct3, and the handler is `storeWith` at one byte. -/
theorem storeByteWritesOneByte : Obligations.StoreByteWritesOneByte :=
  ⟨rowDecodes_of_opcode_funct3 fun _ => decode_sb, fun rs1 rs2 imm s =>
    storesTo_of_storeWith (exec_sb rs1 rs2 imm s)⟩

/-- Settles O12: the row fixes opcode and funct3, and the handler is `storeWith` at two bytes. -/
theorem storeHalfWritesTwoBytes : Obligations.StoreHalfWritesTwoBytes :=
  ⟨rowDecodes_of_opcode_funct3 fun _ => decode_sh, fun rs1 rs2 imm s =>
    storesTo_of_storeWith (exec_sh rs1 rs2 imm s)⟩

/-- Settles O13: the row fixes opcode and funct3, and the handler is `storeWith` at four bytes. -/
theorem storeWordWritesFourBytes : Obligations.StoreWordWritesFourBytes :=
  ⟨rowDecodes_of_opcode_funct3 fun _ => decode_sw, fun rs1 rs2 imm s =>
    storesTo_of_storeWith (exec_sw rs1 rs2 imm s)⟩

end Machine
end Sys2Proof
end

section
/-! PROOFS. The statements about the nine immediate-ALU instructions (46_alu_immediate.md). -/

namespace Sys2Proof

/-! ## The nine rows (R191 to R196, R198 to R200) -/

section
variable {w : Word} (hop : opcode w = 0b0010011#7)
include hop

theorem decode_addi (hf3 : funct3 w = 0b000#3) (strict : Bool) :
    decode strict w = .ok (.addi (fieldRd w) (fieldRs1 w) (immI w)) := by
  simp only [decode, hop, decodeAluImm, hf3]

theorem decode_slti (hf3 : funct3 w = 0b010#3) (strict : Bool) :
    decode strict w = .ok (.slti (fieldRd w) (fieldRs1 w) (immI w)) := by
  simp only [decode, hop, decodeAluImm, hf3]

theorem decode_sltiu (hf3 : funct3 w = 0b011#3) (strict : Bool) :
    decode strict w = .ok (.sltiu (fieldRd w) (fieldRs1 w) (immI w)) := by
  simp only [decode, hop, decodeAluImm, hf3]

theorem decode_xori (hf3 : funct3 w = 0b100#3) (strict : Bool) :
    decode strict w = .ok (.xori (fieldRd w) (fieldRs1 w) (immI w)) := by
  simp only [decode, hop, decodeAluImm, hf3]

theorem decode_ori (hf3 : funct3 w = 0b110#3) (strict : Bool) :
    decode strict w = .ok (.ori (fieldRd w) (fieldRs1 w) (immI w)) := by
  simp only [decode, hop, decodeAluImm, hf3]

theorem decode_andi (hf3 : funct3 w = 0b111#3) (strict : Bool) :
    decode strict w = .ok (.andi (fieldRd w) (fieldRs1 w) (immI w)) := by
  simp only [decode, hop, decodeAluImm, hf3]

/-- Level 3 of SLLI examines funct7 under STRICT_DECODE alone (decision D7). -/
theorem decode_slli (hf3 : funct3 w = 0b001#3) (strict : Bool) :
    decode strict w = unexamined strict (funct7 w) (.slli (fieldRd w) (fieldRs1 w) (fieldShamt w)) := by
  simp only [decode, hop, decodeAluImm, hf3]

theorem decode_srli (hf3 : funct3 w = 0b101#3) (hf7 : funct7 w = 0b0000000#7) (strict : Bool) :
    decode strict w = .ok (.srli (fieldRd w) (fieldRs1 w) (fieldShamt w)) := by
  simp [decode, hop, decodeAluImm, hf3, hf7]

theorem decode_srai (hf3 : funct3 w = 0b101#3) (hf7 : funct7 w = 0b0100000#7) (strict : Bool) :
    decode strict w = .ok (.srai (fieldRd w) (fieldRs1 w) (fieldShamt w)) := by
  simp [decode, hop, decodeAluImm, hf3, hf7]

end

/-! ## The sum as an exact sum (R191) -/

/-- The sum of two words is the exact sum of their signed values modulo 2^32. -/
theorem add_eq_ofInt_toInt (a b : Word) : a + b = BitVec.ofInt 32 (a.toInt + b.toInt) := by
  rw [BitVec.ofInt_add, BitVec.ofInt_toInt, BitVec.ofInt_toInt]

namespace Machine

/-- A row that fixes opcode, funct3 and funct7 decodes to i when every word with these three fields does. -/
theorem rowDecodesUnder_of_opcode_funct3_funct7 {strict : Bool} {value : Word} {i : Word → Instr}
    (h : ∀ w, opcode w = opcode value → funct3 w = funct3 value → funct7 w = funct7 value →
      decode strict w = .ok (i w)) : RowDecodesUnder strict 0xFE00707F#32 value i :=
  fun w row => h w (opcode_of_row row rfl) (field_of_mask row 12 3 rfl) (field_of_mask row 25 7 rfl)

/-! ## The comparison and the shifts as arithmetic (R192, R198 to R200) -/

/-- The word of a test that decides a condition. -/
theorem boolWord_eq_ite {test : Bool} {cond : Prop} [Decidable cond] (h : test = true ↔ cond) :
    boolWord test = if cond then 1#32 else 0#32 := by
  simp only [boolWord, h]

theorem shiftLeft_eq_ofNat (a : Word) (n : BitVec 5) :
    shiftLeft a n = BitVec.ofNat 32 (a.toNat * 2 ^ n.toNat) := by
  apply BitVec.eq_of_toNat_eq
  rw [shiftLeft, BitVec.toNat_shiftLeft, Nat.shiftLeft_eq, BitVec.toNat_ofNat]

theorem shiftRightLogical_eq_ofNat (a : Word) (n : BitVec 5) :
    shiftRightLogical a n = BitVec.ofNat 32 (a.toNat / 2 ^ n.toNat) := by
  rw [shiftRightLogical, ← Nat.shiftRight_eq_div_pow, ← BitVec.toNat_ushiftRight, BitVec.ofNat_toNat,
    BitVec.setWidth_eq]

/-- Integer division by a positive number rounds down, as the arithmetic shift does. -/
theorem shiftRightArith_eq_ofInt (a : Word) (n : BitVec 5) :
    shiftRightArith a n = BitVec.ofInt 32 (a.toInt / 2 ^ n.toNat) := by
  rw [shiftRightArith, BitVec.sshiftRight, Int.shiftRight_eq_div_pow, Nat.cast_pow, Nat.cast_ofNat]

/-! ## What the nine share (R190, R197) -/

/-- An instruction whose handler is `aluResult` computes its value into its destination and goes to the next pc. -/
theorem computesInto_of_aluResult {i : Instr} {s : State} {rd : Reg} {u v : Word}
    (answer : exec i s = .next (aluResult rd u s)) (value : u = v) : ComputesInto i s rd v (s.pc + 4#32) :=
  value ▸ computesInto_of_commitReg answer

/-! ## The nine handlers -/

section
variable (rd rs1 : Reg) (imm : Word) (shamt : BitVec 5) (s : State)

theorem exec_addi : exec (.addi rd rs1 imm) s = .next (aluResult rd (getReg rs1 s + imm) s) := rfl

theorem exec_slti :
    exec (.slti rd rs1 imm) s = .next (aluResult rd (boolWord (ltSigned (getReg rs1 s) imm)) s) := rfl

theorem exec_sltiu :
    exec (.sltiu rd rs1 imm) s = .next (aluResult rd (boolWord (ltUnsigned (getReg rs1 s) imm)) s) := rfl

theorem exec_xori : exec (.xori rd rs1 imm) s = .next (aluResult rd (getReg rs1 s ^^^ imm) s) := rfl

theorem exec_ori : exec (.ori rd rs1 imm) s = .next (aluResult rd (getReg rs1 s ||| imm) s) := rfl

theorem exec_andi : exec (.andi rd rs1 imm) s = .next (aluResult rd (getReg rs1 s &&& imm) s) := rfl

theorem exec_slli :
    exec (.slli rd rs1 shamt) s = .next (aluResult rd (shiftLeft (getReg rs1 s) shamt) s) := rfl

theorem exec_srli :
    exec (.srli rd rs1 shamt) s = .next (aluResult rd (shiftRightLogical (getReg rs1 s) shamt) s) := rfl

theorem exec_srai :
    exec (.srai rd rs1 shamt) s = .next (aluResult rd (shiftRightArith (getReg rs1 s) shamt) s) := rfl

end

/-- Settles O14: the row fixes opcode and funct3, and the sum of two words is their exact sum modulo 2^32. -/
theorem addiAddsImmediate : Obligations.AddiAddsImmediate :=
  ⟨rowDecodes_of_opcode_funct3 fun _ => decode_addi, fun rd rs1 imm s =>
    computesInto_of_aluResult (exec_addi rd rs1 imm s) (add_eq_ofInt_toInt ..)⟩

/-- Settles O15: the rows fix opcode and funct3, and the tests are the orders of the integers and of the naturals. -/
theorem sltiSltiuCompareWithImmediate : Obligations.SltiSltiuCompareWithImmediate :=
  ⟨rowDecodes_of_opcode_funct3 fun _ => decode_slti,
   rowDecodes_of_opcode_funct3 fun _ => decode_sltiu,
   fun rd rs1 imm s =>
    ⟨computesInto_of_aluResult (exec_slti rd rs1 imm s) (boolWord_eq_ite (ltSigned_iff ..)),
     computesInto_of_aluResult (exec_sltiu rd rs1 imm s) (boolWord_eq_ite (ltUnsigned_iff ..))⟩⟩

/-- Settles O16: the rows fix opcode and funct3, and each handler writes the library's bitwise operation. -/
theorem xoriOriAndiAreBitwise : Obligations.XoriOriAndiAreBitwise :=
  ⟨rowDecodes_of_opcode_funct3 fun _ => decode_xori,
   rowDecodes_of_opcode_funct3 fun _ => decode_ori,
   rowDecodes_of_opcode_funct3 fun _ => decode_andi,
   fun rd rs1 imm s =>
    ⟨getReg rs1 s ^^^ imm, getReg rs1 s ||| imm, getReg rs1 s &&& imm,
     computesInto_of_aluResult (exec_xori rd rs1 imm s) rfl,
     computesInto_of_aluResult (exec_ori rd rs1 imm s) rfl,
     computesInto_of_aluResult (exec_andi rd rs1 imm s) rfl,
     fun _ _ => ⟨BitVec.getLsbD_xor, BitVec.getLsbD_or, BitVec.getLsbD_and⟩⟩⟩

/-- Settles O17: the rows fix opcode and funct3, and under STRICT_DECODE the field it examines. -/
theorem slliShiftsLeft : Obligations.SlliShiftsLeft := by
  refine ⟨fun w row => ?default, rowDecodesUnder_of_opcode_funct3_funct7 fun w hop hf3 hf7 => ?strict,
    fun rd rs1 shamt s => computesInto_of_aluResult (exec_slli rd rs1 shamt s) (shiftLeft_eq_ofNat ..)⟩
  case default =>
    rw [decode_slli (opcode_of_row row rfl) (field_of_mask row 12 3 rfl), unexamined_false, fieldRd, fieldRs1,
      fieldShamt]
  case strict =>
    have zero : funct7 w = 0#7 := hf7
    rw [decode_slli hop hf3, zero, unexamined_zero, fieldRd, fieldRs1, fieldShamt]

/-- Settles O18: the rows fix opcode, funct3 and funct7, and the shifts divide by 2^shamt and round down. -/
theorem srliSraiShiftRight : Obligations.SrliSraiShiftRight :=
  ⟨fun strict => rowDecodesUnder_of_opcode_funct3_funct7 fun _ hop hf3 hf7 => decode_srli hop hf3 hf7 strict,
   fun strict => rowDecodesUnder_of_opcode_funct3_funct7 fun _ hop hf3 hf7 => decode_srai hop hf3 hf7 strict,
   fun rd rs1 shamt s =>
    ⟨computesInto_of_aluResult (exec_srli rd rs1 shamt s) (shiftRightLogical_eq_ofNat ..),
     computesInto_of_aluResult (exec_srai rd rs1 shamt s) (shiftRightArith_eq_ofInt ..)⟩⟩

end Machine
end Sys2Proof
end

section
/-! PROOFS. The statements about the ten register-ALU instructions (47_alu_register.md). -/

namespace Sys2Proof

/-! ## Decoding by the round trip -/

/-- A word that is the encoding of a well-formed instruction decodes to it. -/
theorem decode_of_encode_eq {strict : Bool} {i : Instr} {w : Word} (hw : i.wellFormed = true) (h : encode i = w) :
    decode strict w = .ok i :=
  h ▸ Laws.roundTrip i hw strict

/-! ## The ten rows (R206 to R215) -/

section
variable {w : Word} (hop : opcode w = 0b0110011#7)
include hop

theorem decode_add (hf3 : funct3 w = 0b000#3) (hf7 : funct7 w = 0b0000000#7) (strict : Bool) :
    decode strict w = .ok (.add (fieldRd w) (fieldRs1 w) (fieldRs2 w)) :=
  decode_of_encode_eq rfl (packR_of_selectors hop hf3 hf7)

theorem decode_sub (hf3 : funct3 w = 0b000#3) (hf7 : funct7 w = 0b0100000#7) (strict : Bool) :
    decode strict w = .ok (.sub (fieldRd w) (fieldRs1 w) (fieldRs2 w)) :=
  decode_of_encode_eq rfl (packR_of_selectors hop hf3 hf7)

theorem decode_srl (hf3 : funct3 w = 0b101#3) (hf7 : funct7 w = 0b0000000#7) (strict : Bool) :
    decode strict w = .ok (.srl (fieldRd w) (fieldRs1 w) (fieldRs2 w)) :=
  decode_of_encode_eq rfl (packR_of_selectors hop hf3 hf7)

theorem decode_sra (hf3 : funct3 w = 0b101#3) (hf7 : funct7 w = 0b0100000#7) (strict : Bool) :
    decode strict w = .ok (.sra (fieldRd w) (fieldRs1 w) (fieldRs2 w)) :=
  decode_of_encode_eq rfl (packR_of_selectors hop hf3 hf7)

/-! Level 3 of the other six examines funct7 under STRICT_DECODE alone (decision D7). -/

theorem decode_sll (hf3 : funct3 w = 0b001#3) (strict : Bool) :
    decode strict w = unexamined strict (funct7 w) (.sll (fieldRd w) (fieldRs1 w) (fieldRs2 w)) := by
  simp only [decode, hop, decodeAluReg, hf3]

theorem decode_slt (hf3 : funct3 w = 0b010#3) (strict : Bool) :
    decode strict w = unexamined strict (funct7 w) (.slt (fieldRd w) (fieldRs1 w) (fieldRs2 w)) := by
  simp only [decode, hop, decodeAluReg, hf3]

theorem decode_sltu (hf3 : funct3 w = 0b011#3) (strict : Bool) :
    decode strict w = unexamined strict (funct7 w) (.sltu (fieldRd w) (fieldRs1 w) (fieldRs2 w)) := by
  simp only [decode, hop, decodeAluReg, hf3]

theorem decode_xor (hf3 : funct3 w = 0b100#3) (strict : Bool) :
    decode strict w = unexamined strict (funct7 w) (.xor (fieldRd w) (fieldRs1 w) (fieldRs2 w)) := by
  simp only [decode, hop, decodeAluReg, hf3]

theorem decode_or (hf3 : funct3 w = 0b110#3) (strict : Bool) :
    decode strict w = unexamined strict (funct7 w) (.or (fieldRd w) (fieldRs1 w) (fieldRs2 w)) := by
  simp only [decode, hop, decodeAluReg, hf3]

theorem decode_and (hf3 : funct3 w = 0b111#3) (strict : Bool) :
    decode strict w = unexamined strict (funct7 w) (.and (fieldRd w) (fieldRs1 w) (fieldRs2 w)) := by
  simp only [decode, hop, decodeAluReg, hf3]

end

/-! ## The difference as an exact difference (R207) -/

/-- The difference of two words is the exact difference of their signed values modulo 2^32. -/
theorem sub_eq_ofInt_toInt (a b : Word) : a - b = BitVec.ofInt 32 (a.toInt - b.toInt) := by
  rw [Int.sub_eq_add_neg, BitVec.ofInt_add, BitVec.ofInt_neg, BitVec.ofInt_toInt, BitVec.ofInt_toInt,
    BitVec.sub_eq_add_neg]

namespace Machine

section
variable {value : Word} {i : Word → Instr}
  (h : ∀ w, opcode w = opcode value → funct3 w = funct3 value → ∀ strict,
    decode strict w = unexamined strict (funct7 w) (i w))
include h

/-- By default a row whose funct7 is not examined fixes opcode and funct3 alone. -/
theorem rowDecodesUnder_false_of_unexamined : RowDecodesUnder false 0x0000707F#32 value i :=
  fun w row => h w (opcode_of_row row rfl) (field_of_mask row 12 3 rfl) false

/-- Under STRICT_DECODE the row fixes funct7 too, at zero. -/
theorem rowDecodesUnder_true_of_unexamined (zero : funct7 value = 0#7) :
    RowDecodesUnder true 0xFE00707F#32 value i :=
  rowDecodesUnder_of_opcode_funct3_funct7 fun w hop hf3 hf7 => by
    rw [h w hop hf3, hf7, zero, unexamined_zero]

end

/-! ## The count of a register shift (R208, R212, R213) -/

theorem toNat_shiftCount (v : Word) : (shiftCount v).toNat = v.toNat % 32 := by
  rw [shiftCount, BitVec.extractLsb'_toNat, Nat.shiftRight_zero]

theorem shiftLeft_shiftCount (a b : Word) :
    shiftLeft a (shiftCount b) = BitVec.ofNat 32 (a.toNat * 2 ^ (b.toNat % 32)) := by
  rw [shiftLeft_eq_ofNat, toNat_shiftCount]

theorem shiftRightLogical_shiftCount (a b : Word) :
    shiftRightLogical a (shiftCount b) = BitVec.ofNat 32 (a.toNat / 2 ^ (b.toNat % 32)) := by
  rw [shiftRightLogical_eq_ofNat, toNat_shiftCount]

theorem shiftRightArith_shiftCount (a b : Word) :
    shiftRightArith a (shiftCount b) = BitVec.ofInt 32 (a.toInt / 2 ^ (b.toNat % 32)) := by
  rw [shiftRightArith_eq_ofInt, toNat_shiftCount]

/-! ## The ten handlers -/

section
variable (rd rs1 rs2 : Reg) (s : State)

theorem exec_add : exec (.add rd rs1 rs2) s = .next (aluResult rd (getReg rs1 s + getReg rs2 s) s) := rfl

theorem exec_sub : exec (.sub rd rs1 rs2) s = .next (aluResult rd (getReg rs1 s - getReg rs2 s) s) := rfl

theorem exec_sll :
    exec (.sll rd rs1 rs2) s = .next (aluResult rd (shiftLeft (getReg rs1 s) (shiftCount (getReg rs2 s))) s) := rfl

theorem exec_slt :
    exec (.slt rd rs1 rs2) s = .next (aluResult rd (boolWord (ltSigned (getReg rs1 s) (getReg rs2 s))) s) := rfl

theorem exec_sltu :
    exec (.sltu rd rs1 rs2) s = .next (aluResult rd (boolWord (ltUnsigned (getReg rs1 s) (getReg rs2 s))) s) := rfl

theorem exec_xor : exec (.xor rd rs1 rs2) s = .next (aluResult rd (getReg rs1 s ^^^ getReg rs2 s) s) := rfl

theorem exec_srl : exec (.srl rd rs1 rs2) s =
    .next (aluResult rd (shiftRightLogical (getReg rs1 s) (shiftCount (getReg rs2 s))) s) := rfl

theorem exec_sra : exec (.sra rd rs1 rs2) s =
    .next (aluResult rd (shiftRightArith (getReg rs1 s) (shiftCount (getReg rs2 s))) s) := rfl

theorem exec_or : exec (.or rd rs1 rs2) s = .next (aluResult rd (getReg rs1 s ||| getReg rs2 s) s) := rfl

theorem exec_and : exec (.and rd rs1 rs2) s = .next (aluResult rd (getReg rs1 s &&& getReg rs2 s) s) := rfl

end

/-- Settles O19: the rows fix opcode, funct3 and funct7, and sum and difference are the exact ones modulo 2^32. -/
theorem addSubWrap : Obligations.AddSubWrap :=
  ⟨fun strict => rowDecodesUnder_of_opcode_funct3_funct7 fun _ hop hf3 hf7 => decode_add hop hf3 hf7 strict,
   fun strict => rowDecodesUnder_of_opcode_funct3_funct7 fun _ hop hf3 hf7 => decode_sub hop hf3 hf7 strict,
   fun rd rs1 rs2 s =>
    ⟨computesInto_of_aluResult (exec_add rd rs1 rs2 s) (add_eq_ofInt_toInt ..),
     computesInto_of_aluResult (exec_sub rd rs1 rs2 s) (sub_eq_ofInt_toInt ..)⟩⟩

/-- Settles O20: the rows fix opcode, funct3 and funct7, and the five low bits are the count modulo 32. -/
theorem srlSraUseFiveBitCounts : Obligations.SrlSraUseFiveBitCounts :=
  ⟨fun strict => rowDecodesUnder_of_opcode_funct3_funct7 fun _ hop hf3 hf7 => decode_srl hop hf3 hf7 strict,
   fun strict => rowDecodesUnder_of_opcode_funct3_funct7 fun _ hop hf3 hf7 => decode_sra hop hf3 hf7 strict,
   fun rd rs1 rs2 s =>
    ⟨computesInto_of_aluResult (exec_srl rd rs1 rs2 s) (shiftRightLogical_shiftCount ..),
     computesInto_of_aluResult (exec_sra rd rs1 rs2 s) (shiftRightArith_shiftCount ..)⟩⟩

/-- Settles O21: the rows fix opcode and funct3, and under STRICT_DECODE funct7; the count is modulo 32, and the tests
are the orders of the integers and of the naturals. -/
theorem sllSltSltuCompute : Obligations.SllSltSltuCompute :=
  ⟨rowDecodesUnder_false_of_unexamined fun _ => decode_sll,
   rowDecodesUnder_true_of_unexamined (fun _ => decode_sll) rfl,
   rowDecodesUnder_false_of_unexamined fun _ => decode_slt,
   rowDecodesUnder_true_of_unexamined (fun _ => decode_slt) rfl,
   rowDecodesUnder_false_of_unexamined fun _ => decode_sltu,
   rowDecodesUnder_true_of_unexamined (fun _ => decode_sltu) rfl,
   fun rd rs1 rs2 s =>
    ⟨computesInto_of_aluResult (exec_sll rd rs1 rs2 s) (shiftLeft_shiftCount ..),
     computesInto_of_aluResult (exec_slt rd rs1 rs2 s) (boolWord_eq_ite (ltSigned_iff ..)),
     computesInto_of_aluResult (exec_sltu rd rs1 rs2 s) (boolWord_eq_ite (ltUnsigned_iff ..))⟩⟩

/-- Settles O22: the rows fix opcode and funct3, and under STRICT_DECODE funct7; each handler writes the library's
bitwise operation. -/
theorem xorOrAndAreBitwise : Obligations.XorOrAndAreBitwise :=
  ⟨rowDecodesUnder_false_of_unexamined fun _ => decode_xor,
   rowDecodesUnder_true_of_unexamined (fun _ => decode_xor) rfl,
   rowDecodesUnder_false_of_unexamined fun _ => decode_or,
   rowDecodesUnder_true_of_unexamined (fun _ => decode_or) rfl,
   rowDecodesUnder_false_of_unexamined fun _ => decode_and,
   rowDecodesUnder_true_of_unexamined (fun _ => decode_and) rfl,
   fun rd rs1 rs2 s =>
    ⟨getReg rs1 s ^^^ getReg rs2 s, getReg rs1 s ||| getReg rs2 s, getReg rs1 s &&& getReg rs2 s,
     computesInto_of_aluResult (exec_xor rd rs1 rs2 s) rfl,
     computesInto_of_aluResult (exec_or rd rs1 rs2 s) rfl,
     computesInto_of_aluResult (exec_and rd rs1 rs2 s) rfl,
     fun _ _ => ⟨BitVec.getLsbD_xor, BitVec.getLsbD_or, BitVec.getLsbD_and⟩⟩⟩

end Machine
end Sys2Proof
end

section
/-! PROOFS. The statement about FENCE (48_fence.md). -/

namespace Sys2Proof

theorem decode_of_opcode_fence {w : Word} (hop : opcode w = 0b0001111#7) (strict : Bool) :
    decode strict w = unexamined strict (funct3 w)
      (.fence (fieldFm w) (fieldPred w) (fieldSucc w) (fieldRs1 w) (fieldRd w)) := by
  simp only [decode, hop]

namespace Machine

theorem exec_fence (fm pred succ : BitVec 4) (rs1 rd : Reg) (s : State) :
    exec (.fence fm pred succ rs1 rd) s = .next (commitPc (nextPc s) s) := rfl

/-- Settles O23: the rows fix the opcode, and under STRICT_DECODE the field it examines; the handler is `commitPc`. -/
theorem fenceOnlyAdvancesPc : Obligations.FenceOnlyAdvancesPc := by
  refine ⟨fun w row => ?default, fun w row => ?strict, fun fm pred succ rs1 rd s =>
    jumpsTo_of_commitPc (exec_fence fm pred succ rs1 rd s)⟩
  case default => exact decode_of_opcode_fence (opcode_of_row row rfl) false
  case strict =>
    have hf3 : funct3 w = 0#3 := field_of_mask row 12 3 rfl
    rw [decode_of_opcode_fence (opcode_of_row row rfl), hf3, unexamined_zero, fieldFm, fieldPred, fieldSucc, fieldRs1,
      fieldRd]

end Machine
end Sys2Proof
end

section
/-! PROOFS. The statements about ECALL, EBREAK and the CSR forms (49_system.md), with the frame of `raiseHalt` that
every halt rests on. -/

namespace Sys2Proof

/-! ## The decoder keeps the opcode -/

section
variable {strict : Bool} {w : Word} {i : Instr}

theorem opcode_encode_of_decodeAluImm (h : decodeAluImm strict w = .ok i) : opcode (encode i) = 0b0010011#7 := by
  unfold decodeAluImm at h
  split at h
  case h_7 =>
    obtain ⟨rfl, -⟩ := unexamined_ok h
    exact opcode_packR ..
  case h_8 =>
    split at h <;> cases h
    all_goals exact opcode_packR ..
  all_goals
    cases h
    exact opcode_packI ..

theorem opcode_encode_of_decodeAluReg (h : decodeAluReg strict w = .ok i) : opcode (encode i) = 0b0110011#7 := by
  unfold decodeAluReg at h
  split at h
  case h_1 | h_8 =>
    split at h <;> cases h
    all_goals exact opcode_packR ..
  all_goals
    obtain ⟨rfl, -⟩ := unexamined_ok h
    exact opcode_packR ..

/-- A decoded instruction is of the family of the word, also where the decoder leaves a field unexamined. -/
theorem opcode_encode_of_decode (h : decode strict w = .ok i) : opcode (encode i) = opcode w := by
  unfold decode at h
  split at h
  case h_1 hop | h_2 hop => cases h; rw [encode, packU_of_selectors hop]
  case h_3 hop => cases h; rw [encode, packJ_of_selectors hop]
  case h_4 hop | h_10 hop => -- JALR and FENCE
    obtain ⟨rfl, -⟩ := unexamined_ok h
    rw [encode, opcode_packI, hop]
  case h_5 hop => rw [encode_of_decodeBranch hop h]
  case h_6 hop => rw [encode_of_decodeLoad hop h]
  case h_7 hop => rw [encode_of_decodeStore hop h]
  case h_8 hop => rw [opcode_encode_of_decodeAluImm h, hop]
  case h_9 hop => rw [opcode_encode_of_decodeAluReg h, hop]
  case h_11 hop => rw [encode_of_decodeSystem hop h]
  case h_12 => cases h

theorem decode_of_opcode_system (hop : opcode w = 0b1110011#7) : decode strict w = decodeSystem w := by
  simp only [decode, hop]

/-- The decoder examines every bit of the system family: each of its instructions has one word (decision D8). -/
theorem decode_eq_ok_iff_of_system (hw : i.wellFormed = true) (system : opcode (encode i) = 0b1110011#7) :
    decode strict w = .ok i ↔ w = encode i := by
  constructor
  · intro h
    have hop : opcode w = 0b1110011#7 := (opcode_encode_of_decode h).symm.trans system
    rw [decode_of_opcode_system hop] at h
    exact (encode_of_decodeSystem hop h).symm
  · exact fun h => decode_of_encode_eq hw h.symm

end

theorem decode_ecall_iff (strict : Bool) (w : Word) : decode strict w = .ok .ecall ↔ w = 0x00000073#32 :=
  decode_eq_ok_iff_of_system rfl rfl

theorem decode_ebreak_iff (strict : Bool) (w : Word) : decode strict w = .ok .ebreak ↔ w = 0x00100073#32 :=
  decode_eq_ok_iff_of_system rfl rfl

/-! ## The six CSR rows (R231 to R236) -/

section
variable {w : Word} (hop : opcode w = 0b1110011#7)
include hop

theorem decode_csrrw (hf3 : funct3 w = 0b001#3) (strict : Bool) :
    decode strict w = .ok (.csrrw (fieldRd w) (fieldCsr w) (fieldRs1 w)) :=
  decode_of_encode_eq rfl (packI_of_selectors hop hf3)

theorem decode_csrrs (hf3 : funct3 w = 0b010#3) (strict : Bool) :
    decode strict w = .ok (.csrrs (fieldRd w) (fieldCsr w) (fieldRs1 w)) :=
  decode_of_encode_eq rfl (packI_of_selectors hop hf3)

theorem decode_csrrc (hf3 : funct3 w = 0b011#3) (strict : Bool) :
    decode strict w = .ok (.csrrc (fieldRd w) (fieldCsr w) (fieldRs1 w)) :=
  decode_of_encode_eq rfl (packI_of_selectors hop hf3)

theorem decode_csrrwi (hf3 : funct3 w = 0b101#3) (strict : Bool) :
    decode strict w = .ok (.csrrwi (fieldRd w) (fieldCsr w) (fieldRs1 w)) :=
  decode_of_encode_eq rfl (packI_of_selectors hop hf3)

theorem decode_csrrsi (hf3 : funct3 w = 0b110#3) (strict : Bool) :
    decode strict w = .ok (.csrrsi (fieldRd w) (fieldCsr w) (fieldRs1 w)) :=
  decode_of_encode_eq rfl (packI_of_selectors hop hf3)

theorem decode_csrrci (hf3 : funct3 w = 0b111#3) (strict : Bool) :
    decode strict w = .ok (.csrrci (fieldRd w) (fieldCsr w) (fieldRs1 w)) :=
  decode_of_encode_eq rfl (packI_of_selectors hop hf3)

end

namespace Machine

/-! ## The halt (60_exceptions.md R244) -/

/-- `raiseHalt` sets the halted flag and the outcome; nothing else changes. -/
theorem haltsWith_raiseHalt (cause : HaltCause) (s : State) : HaltsWith s (raiseHalt cause s) cause where
  halted := raiseHalt_halted cause s
  outcome := raiseHalt_outcome cause s
  pc := raiseHalt_pc cause s
  file := raiseHalt_x cause s
  registers r := getReg_raiseHalt r cause s
  cells := raiseHalt_mem cause s
  bytes := peek8_congr (raiseHalt_cfg cause s) (raiseHalt_mem cause s)
  count := raiseHalt_insnCount cause s
  params := raiseHalt_cfg cause s
  events := raiseHalt_events cause s

theorem haltsAs_of_raiseHalt {i : Instr} {s : State} {cause : HaltCause}
    (answer : exec i s = .next (raiseHalt cause s)) : HaltsAs i s cause :=
  ⟨_, answer, haltsWith_raiseHalt cause s⟩

theorem exec_ecall (s : State) : exec .ecall s = .next (raiseHalt .ecall s) := rfl

theorem exec_ebreak (s : State) : exec .ebreak s = .next (raiseHalt .ebreak s) := rfl

/-- No CSR form reads its operands (R230). -/
theorem exec_of_csrForm {i : Instr} (h : csrForm i = true) (s : State) :
    exec i s = .next (raiseHalt .illegalInstruction s) := by
  cases i
  case csrrw | csrrs | csrrc | csrrwi | csrrsi | csrrci => rfl
  all_goals exact absurd h Bool.false_ne_true

/-- Settles O24: ECALL and EBREAK are of the system family, and their handlers are `raiseHalt`. -/
theorem ecallEbreakHalt : Obligations.EcallEbreakHalt :=
  ⟨decode_ecall_iff, decode_ebreak_iff, fun s =>
    ⟨haltsAs_of_raiseHalt (exec_ecall s), haltsAs_of_raiseHalt (exec_ebreak s)⟩⟩

/-- Settles O25: the rows fix opcode and funct3, and all six handlers are one halt. -/
theorem csrFormsHaltAsIllegal : Obligations.CsrFormsHaltAsIllegal :=
  ⟨rowDecodes_of_opcode_funct3 fun _ => decode_csrrw,
   rowDecodes_of_opcode_funct3 fun _ => decode_csrrs,
   rowDecodes_of_opcode_funct3 fun _ => decode_csrrc,
   rowDecodes_of_opcode_funct3 fun _ => decode_csrrwi,
   rowDecodes_of_opcode_funct3 fun _ => decode_csrrsi,
   rowDecodes_of_opcode_funct3 fun _ => decode_csrrci,
   fun _ s h => haltsAs_of_raiseHalt (exec_of_csrForm h s)⟩

end Machine
end Sys2Proof
end

section
/-! PROOFS. The statements about the halt in place of exceptions (60_exceptions.md): what causes it, and what a step
that halts leaves unchanged. -/

namespace Sys2Proof.Machine

/-! ## The outcome is a function of the decoded word (R241) -/

/-- What a running core answers, by the decoder's answer alone. -/
def outcomeOf : Except Illegal Instr → StepOutcome
  | .ok .ecall => .halted .ecall
  | .ok .ebreak => .halted .ebreak
  | d => if illegalDecode d then .halted .illegalInstruction else .retired

theorem outcomeOf_illegal_iff (d : Except Illegal Instr) :
    outcomeOf d = .halted .illegalInstruction ↔ illegalDecode d = true := by
  unfold outcomeOf
  split
  · exact iff_of_false nofun nofun
  · exact iff_of_false nofun nofun
  · split_ifs with hi
    · exact iff_of_true rfl hi
    · exact iff_of_false nofun hi

theorem outcomeOf_ebreak_iff (d : Except Illegal Instr) : outcomeOf d = .halted .ebreak ↔ d = .ok .ebreak := by
  unfold outcomeOf
  split
  · exact iff_of_false nofun nofun
  · exact iff_of_true rfl rfl
  · next other => exact iff_of_false (by split_ifs <;> nofun) other

theorem outcomeOf_ecall_iff (d : Except Illegal Instr) : outcomeOf d = .halted .ecall ↔ d = .ok .ecall := by
  unfold outcomeOf
  split
  · exact iff_of_true rfl rfl
  · exact iff_of_false nofun nofun
  · next other _ => exact iff_of_false (by split_ifs <;> nofun) other

theorem exec_outcome (i : Instr) (s : State) : ∃ t, exec i s = .next t ∧ t.outcome = some (outcomeOf (.ok i)) := by
  cases i
  all_goals exact ⟨_, rfl, rfl⟩

section
variable {s t : State} (hrun : s.halted = false) (hst : step s = .next t)
include hrun hst

theorem step_outcome : t.outcome = some (outcomeOf (decode s.cfg.strictDecode (peek32 s.pc s))) := by
  obtain ⟨hh, -⟩ | ⟨-, e, hd, rfl⟩ | ⟨-, i, hd, -, hx⟩ := step_cases hst
  · exact absurd (hrun.symm.trans hh) Bool.false_ne_true
  · rw [hd]
    rfl
  · obtain ⟨u, hu, ho⟩ := exec_outcome i (fetched s)
    obtain rfl : u = t := Host.Outcome.next.inj (hu.symm.trans hx)
    rw [hd, ho]

/-- The halted flag and the outcome of a step agree. -/
theorem step_halted_iff : t.halted = true ↔ ∃ c, t.outcome = some (.halted c) := by
  obtain ⟨hh, -⟩ | ⟨-, e, -, rfl⟩ | ⟨-, i, -, he, -⟩ := step_cases hst
  · exact absurd (hrun.symm.trans hh) Bool.false_ne_true
  · exact iff_of_true rfl ⟨_, rfl⟩
  · obtain ⟨hkeep, ho⟩ | ⟨hhalt, hc⟩ := he.retires_or_halts
    · have runs : t.halted = false := hkeep.trans hrun
      simp [runs, ho]
    · exact iff_of_true hhalt hc

end

/-- Settles O39: each cause has its own words, and a step halts exactly when it has a cause. -/
theorem haltCausesAreClosed : Obligations.HaltCausesAreClosed := by
  intro s t hrun hst
  have illegal : t.outcome = some (.halted .illegalInstruction) ↔ IllegalWord s.cfg.strictDecode (peek32 s.pc s) := by
    rw [step_outcome hrun hst, Option.some_inj, outcomeOf_illegal_iff, illegalDecode_iff]
  have ebreak : t.outcome = some (.halted .ebreak) ↔ peek32 s.pc s = 0x00100073#32 := by
    rw [step_outcome hrun hst, Option.some_inj, outcomeOf_ebreak_iff, decode_ebreak_iff]
  have ecall : t.outcome = some (.halted .ecall) ↔ peek32 s.pc s = 0x00000073#32 := by
    rw [step_outcome hrun hst, Option.some_inj, outcomeOf_ecall_iff, decode_ecall_iff]
  have halts := step_halted_iff hrun hst
  refine ⟨?_, ebreak, ecall, halts⟩
  rw [halts, ← illegal, ← ebreak, ← ecall]
  constructor
  · rintro ⟨c, hc⟩
    cases c with
    | illegalInstruction => exact .inl hc
    | ebreak => exact .inr (.inl hc)
    | ecall => exact .inr (.inr hc)
  · rintro (hc | hc | hc)
    all_goals exact ⟨_, hc⟩

/-! ## What a halt leaves unchanged (R244, R248) -/

/-- Of the four shapes of a handler only the halt sets the halted flag. -/
theorem Effect.eq_raiseHalt {i : Instr} {s t : State} (he : Effect i s t) (hrun : s.halted = false)
    (hhalt : t.halted = true) : ∃ c, t = raiseHalt c s := by
  cases he with
  | register rd v target es even => rw [commitReg_halted, addEvents_halted, hrun] at hhalt; cases hhalt
  | transfer target even => rw [commitPc_halted, hrun] at hhalt; cases hhalt
  | store n a v => rw [commitPc_halted, memWrite_halted, hrun] at hhalt; cases hhalt
  | halt c => exact ⟨c, rfl⟩

/-- A step that halts is the count and the fetch, and then the halt. -/
theorem step_eq_raiseHalt {s t : State} (hrun : s.halted = false) (hst : step s = .next t) (hhalt : t.halted = true) :
    ∃ c, t = raiseHalt c (fetched s) := by
  obtain ⟨hh, -⟩ | ⟨-, e, -, rfl⟩ | ⟨-, i, -, he, -⟩ := step_cases hst
  · exact absurd (hrun.symm.trans hh) Bool.false_ne_true
  · exact ⟨_, rfl⟩
  · exact he.eq_raiseHalt hrun hhalt

/-- Settles O40: the halt changes nothing of the state after the fetch, where only the counter and the warnings
differ. -/
theorem haltingStepChangesNothingElse : Obligations.HaltingStepChangesNothingElse := by
  intro s t hrun hst hhalt
  obtain ⟨c, rfl⟩ := step_eq_raiseHalt hrun hst hhalt
  have frame := haltsWith_raiseHalt c (fetched s)
  exact ⟨frame.pc, frame.file, frame.registers, frame.cells, frame.bytes, frame.params, frame.count, frame.events⟩

/-- Settles O43: the step is the halt in the state after the fetch, which the statement writes out. -/
theorem undecodableWordHaltsAsIllegal : Obligations.UndecodableWordHaltsAsIllegal :=
  fun s _ hrun hd => ⟨_, step_of_undecodable hrun hd, haltsWith_raiseHalt .illegalInstruction (fetched s)⟩

end Sys2Proof.Machine
end

section
/-! PROOFS. The statements about reset, image load and start of run (70_reset_and_hazards.md). -/

namespace Sys2Proof.Machine

/-! ## Image load (R274, R275) -/

theorem loadImage_of_lt {image : List Byte} {s : State} (h : s.cfg.memSize < image.length) : loadImage image s = none :=
  if_neg (Nat.not_le_of_lt h)

theorem loadImage_of_le {image : List Byte} {s : State} (h : image.length ≤ s.cfg.memSize) :
    loadImage image s = some { s with mem := writeCells imageBase image s.mem } :=
  if_pos h

section
variable (image : List Byte) {m : Memory}

theorem readCell_image {k : Nat} (hk : k < image.length) (hm : m.wf) :
    readCell k (writeCells imageBase image m) = image[k] := by
  have cell := readCell_writeCells_inside (base := imageBase) image hk hm
  rwa [imageBase, Nat.zero_add] at cell

theorem readCell_above_image {a : Nat} (ha : image.length ≤ a) :
    readCell a (writeCells imageBase image m) = readCell a m :=
  readCell_writeCells_outside image (.inr ((Nat.zero_add _).trans_le ha)) m

end

/-- Settles O54: the load is one block write at address 0, made exactly when the image fits. -/
theorem imageLoadCopiesExactlyTheImage : Obligations.ImageLoadCopiesExactlyTheImage :=
  fun image _ => ⟨loadImage_of_lt, fun fits =>
    ⟨_, loadImage_of_le fits, rfl, fun hm _ hk => readCell_image image hk hm,
     fun _ ha => readCell_above_image image ha⟩⟩

/-! ## Reset (R272, R273) -/

theorem construct_default : construct {} = some State.reset := rfl

/-- Settles O49: the reset state is the one constructed with the defaults. -/
theorem resetStateHasInvariant : Obligations.ResetStateHasInvariant :=
  construct_inv construct_default

/-- The reset register file is the sentinel but for slot 0. -/
theorem getReg_resetEngine {r : Reg} (hr : r ≠ 0#5) (s : State) : getReg r (resetEngine s) = regSentinel := by
  have slot : 0 ≠ r.toNat := fun e => hr (BitVec.eq_of_toNat_eq e.symm)
  simp only [getReg, if_neg hr, resetEngine_x, resetRegs]
  rw [Vector.getElem_set_ne _ _ slot, Vector.getElem_replicate]

/-- Settles O51: one lemma for each field of the reset state. -/
theorem resetRestoresEngineAndKeepsMemory : Obligations.ResetRestoresEngineAndKeepsMemory := by
  intro s
  exact ⟨getReg_zero _, fun r hr => getReg_resetEngine hr s, resetEngine_pc s, resetEngine_halted s,
    resetEngine_insnCount s, resetEngine_mem s, peek8_congr (resetEngine_cfg s) (resetEngine_mem s), resetEngine_cfg s,
    rfl⟩

/-! ## Start of run (R276) -/

theorem getReg_startRun (s : State) : getReg 2#5 (startRun s) = BitVec.ofNat 32 s.cfg.memSize :=
  getReg_setReg_same (by decide) _ s

/-- A legal capacity fits a register. -/
theorem toNat_getReg_startRun {s : State} (h : s.cfg.legal) : (getReg 2#5 (startRun s)).toNat = s.cfg.memSize := by
  have top : s.cfg.memSize ≤ 0xFFFFFFF0 := h.2
  rw [getReg_startRun, BitVec.toNat_ofNat]
  omega

/-- Settles O52: start of run is a write of register 2, and a legal capacity survives the narrowing to 32 bits. -/
theorem startRunLoadsCapacity : Obligations.StartRunLoadsCapacity :=
  fun s => ⟨setReg_frame .., fun _ hr => getReg_setReg_other hr _ s, toNat_getReg_startRun, fun h =>
    (inRange_eq_false_iff _ s).mpr (toNat_getReg_startRun h).ge⟩

end Sys2Proof.Machine
end

section
/-! PROOFS. The statement about the words of the spec's examples (41 to 49). -/

namespace Sys2Proof

/-- Settles O37: each word is the encoding of its instruction, whose immediate fits the format. -/
theorem sampleWordsDecode : Obligations.SampleWordsDecode :=
  ⟨decode_of_encode_eq rfl rfl, decode_of_encode_eq rfl rfl, decode_of_encode_eq rfl rfl,
   decode_of_encode_eq rfl rfl, decode_of_encode_eq rfl rfl, decode_of_encode_eq rfl rfl,
   decode_of_encode_eq rfl rfl, decode_of_encode_eq rfl rfl⟩

end Sys2Proof
end
